-- ==== Sys2Proof/Word.lean ====
section
/-! DEFINITION. The word types of the block (R9): every value is unsigned, bit 0 is the least significant. -/

namespace Sys2Proof

/-- A byte, 0 to 255 (R9). -/
abbrev Byte := BitVec 8

/-- A 16-bit value: operation words, `CMD`, `CRC`, `RXCRC`, `SOM` (R22, R71). -/
abbrev Half := BitVec 16

/-- A 32-bit value: `LEN`, `IDX`, `BUF_CAP` (R22, R34). -/
abbrev Word := BitVec 32

end Sys2Proof
end

