-- ==== Sys2Proof/Config.lean ====
section
/-! DEFINITION. What this implementation fixes (the parameters of R7) and the one free value. -/

namespace Sys2Proof

/-- The type of the opaque handle that names a receive buffer (R7: OPEN; R33).
DESIGN CHOICE: the natural numbers, so that states are plain data and there are names enough (log 4). -/
abbrev BufHandle := Nat

/-- `MARKER1`, the first byte of a frame (R7). Named, so that a reader can see what depends on it (R8, log 14). -/
def Config.marker1 : Byte := 0x55#8

/-- `MARKER2`, the second byte of a frame (R7, R8, log 14). -/
def Config.marker2 : Byte := 0xAA#8

/-- `CRC_SEED`, the checksum accumulator's starting value (R7, R8, log 14). -/
def Config.crcSeed : Half := 0xFFFF#16

/-- `CRC_POLY` (R7). The fold formula of R100 fixes it; only the polynomial form of R101 (a) reads it. -/
def Config.crcPoly : Half := 0x1021#16

/-- `BLOCK_PATH` (R7: OPEN). R131 says of the source's decoder that it takes the path.
DESIGN CHOICE: true; feeding takes the flag as an argument, so that statements speak of both values (log 13). -/
def Config.blockPath : Bool := true

/-- FREE VALUE: what a receive-buffer byte that nothing has written reads as (R42, R44; I7 of
93_implementation_defined.md, `any value`). The arguments are the number of the snapshot that reads it, the handle
and the offset. Nothing can be proved about it (log 5). -/
opaque Config.unwrittenByte : Nat → BufHandle → Nat → Byte

end Sys2Proof
end

