-- ==== Sys2Proof/Syntax.lean ====
section
/-! DEFINITION. The six host operations as syntax (R70, `spec/opcode_table.json`), the operand record that travels
with an operation word (R74), the ways a word can fail to be an operation (R76, R172), and the lines of the spec's
textual notation as abstract syntax (R85, R86). -/

namespace Sys2Proof

/-- One host operation with its operands (R70, R74). The count `N` of R74 is the length of the byte list (R85).
The first argument of a decoder or encoder operation says which decoder or encoder it is for (R85's `@<name>`, R203; that
it is an operand is the model's choice, log 18). -/
inductive Instr where
  /-- `CRC_UPDATE` (R103): the flag `R`, `ACC`, `BYTES`. -/
  | crcUpdate (r : Bool) (acc : Half) (bytes : List Byte)
  /-- `DEC_FEED` (R110): `BYTES`. -/
  | decFeed (dec : Nat) (bytes : List Byte)
  /-- `DEC_RESET` (R140). -/
  | decReset (dec : Nat)
  /-- `DEC_IS_IDLE` (R141). -/
  | decIsIdle (dec : Nat)
  /-- `DEC_SET_BUFFER` (R142): the flag `V`, `HANDLE`, `CAP`. -/
  | decSetBuffer (dec : Nat) (v : Bool) (handle : BufHandle) (cap : Word)
  /-- `ENC_ENCODE` (R170): `CMD`, `PAYLOAD`. -/
  | encEncode (enc : Nat) (cmd : Half) (payload : List Byte)
  deriving DecidableEq, Repr

/-- The operand record that travels with an operation word (R71, R74), with room for the operands of every
operation; an operation reads `target` and those R74 gives it, and no others (log 2). `bytes` is `BYTES` or `PAYLOAD`. -/
structure OperandRecord where
  /-- The decoder or encoder the operation is for (R203). DESIGN CHOICE: R71 and R74 give no operand for it, and R85 names
  it in the text only; the model puts it into the record (log 18). -/
  target : Nat
  acc    : Half
  bytes  : List Byte
  handle : BufHandle
  cap    : Word
  cmd    : Half
  deriving DecidableEq, Repr

/-- The record whose every operand is zero or empty. -/
def OperandRecord.zero : OperandRecord :=
  { target := 0, acc := 0#16, bytes := [], handle := 0, cap := 0#32, cmd := 0#16 }

/-- Why a word with its operand record is no operation. -/
inductive DecodeError where
  /-- `OPC` is not in the table of R73 (R76). -/
  | unassignedOpcode
  /-- `RSV` is not zero (R76). -/
  | reservedBits
  /-- `F` is 1 for an operation whose `F` is reserved (R76). -/
  | reservedFlag
  /-- `ENC_ENCODE` with a payload of 2^32 bytes or more, which `N` cannot express (R74, R172). -/
  | payloadTooLong
  deriving DecidableEq, Repr

/-- One line of the textual notation (R85) or one pseudo-operation (R86), without the instance name.
A handle written `none` is `Option.none`. -/
inductive AsmOp where
  | crcUpdate (acc : Half) (r : Bool) (bytes : List Byte)
  | decFeed (bytes : List Byte)
  | decReset
  | decIsIdle
  | decSetBuffer (v : Bool) (handle : Option BufHandle) (cap : Word)
  | encEncode (cmd : Half) (bytes : List Byte)
  /-- `crc_seed` (R86). -/
  | crcSeed
  /-- `crc_fold <acc>, <b>` (R86). -/
  | crcFold (acc : Half) (b : Byte)
  /-- `dec_clear_buffer` (R86). -/
  | decClearBuffer
  deriving DecidableEq, Repr

end Sys2Proof
end

