-- ==== Sys2Proof/Machine/State.lean ====
section
/-! DEFINITION. The state of the block and its power-on value (10_state.md), the host's inputs, and the reasons a step
can stop. -/

namespace Sys2Proof.Machine

/-- The parse state `ST`, a 4-bit register (R22, R23, R79). `unused k` is the code 11 + k, which no rule enters but
which R133 gives a meaning (log 8). -/
inductive ParseState where
  | awaitMarker1
  | awaitMarker2
  | commandHigh
  | commandLow
  | lengthByte0
  | lengthByte1
  | lengthByte2
  | lengthByte3
  | payload
  | checksumHigh
  | checksumLow
  | unused (k : Fin 5)
  deriving DecidableEq, Repr

/-- The error kinds (R83, R192). -/
inductive ErrorKind where
  | badMarker1
  | badMarker2
  | lengthTooLarge
  | payloadOverrun
  | checksumMismatch
  | noBuffer
  deriving DecidableEq, Repr

/-- An event record (R82). `frame` is `on_frame`'s record, `error` is `on_error`'s with the diagnostics of R193. -/
inductive Event where
  | frame (cmd : Half) (len : Word) (payload : List Byte)
  | error (kind : ErrorKind) (cmd : Half) (len : Word) (som : Half) (buf : Option BufHandle)
  deriving DecidableEq, Repr

/-- An assigned receive buffer: `BUF_HANDLE` and `BUF_CAP` (R33, R34). -/
structure Assignment where
  handle : BufHandle
  cap    : Word
  deriving DecidableEq, Repr

/-- One decoder: its seven registers (R22), its configuration registers (R32 to R34) and its event output (R38).
`buffer` is `some` exactly when `BUF_VALID` is 1; see `bufValid`, `bufHandle` and `bufCap` (log 8). -/
structure Decoder where
  st     : ParseState
  cmd    : Half
  len    : Word
  idx    : Word
  crc    : Half
  rxcrc  : Half
  som    : Half
  buffer : Option Assignment
  events : List Event
  deriving DecidableEq, Repr

/-- A decoder after power-on reset without a buffer (R44, R220, R222). -/
def Decoder.powerOn : Decoder :=
  { st := .awaitMarker1, cmd := 0x0000#16, len := 0#32, idx := 0#32, crc := Config.crcSeed, rxcrc := 0x0000#16,
    som := 0x0000#16, buffer := none, events := [] }

/-- A sink transaction (R56, R84). -/
inductive SinkTx where
  | acquire
  | write (bytes : List Byte)
  | release
  deriving DecidableEq, Repr

/-- What the external sink does with a transaction: it returns (for a `WRITE`, with `bytes_written`, which the block
ignores: R56, R237), or it never does (I13 of 93_implementation_defined.md). -/
inductive SinkAnswer where
  | returned (bytesWritten : Nat)
  | never
  deriving DecidableEq, Repr

/-- A byte sink: the transactions it has received (R37), and its coming answers, an input (log 9). A transaction for
which no answer is listed returns. -/
structure Sink where
  log     : List SinkTx
  answers : List SinkAnswer
  deriving DecidableEq, Repr

/-- A sink at power-on: nothing received (R44). -/
def Sink.empty : Sink := { log := [], answers := [] }

/-- An encoder: the sink it drives (R37, R203), and, while an `ENC_ENCODE` on it is performed in turns, the transactions of
that operation that it has not issued yet (R234; log 10). It has no state that survives an operation (R36). -/
structure Encoder where
  sink    : Nat
  pending : List SinkTx
  deriving DecidableEq, Repr

/-- Host memory as far as the block reaches it (R50, R51, R59). `cells` holds the bytes something has written, under
the key `bufKey`. `extents` says of a handle that it names so many bytes (`some n`) or that its memory's lifetime has
ended (`none`); a handle not listed names as many bytes as there are offsets (log 6). `draws` numbers the
snapshots, for the free values of unwritten bytes (log 5). -/
structure HostMem where
  cells   : List Host.Cell
  extents : List (Nat × Option Nat)
  draws   : Nat
  deriving DecidableEq, Repr

/-- Host memory at power-on: nothing known of its contents (R44, D36). -/
def HostMem.powerOn : HostMem := { cells := [], extents := [], draws := 0 }

/-- What a decoder's step reads and writes: the decoder and host memory (R50). -/
structure DecCtx where
  dec : Decoder
  mem : HostMem
  deriving DecidableEq, Repr

/-- The result record of an operation (R75). -/
inductive Result where
  | noResult
  | acc (v : Half)
  | idle (v : Bool)
  deriving DecidableEq, Repr

/-- A decoder or an encoder, by its name (R203). -/
inductive Agent where
  | decoder (k : Nat)
  | encoder (k : Nat)
  deriving DecidableEq, Repr

/-- An operation as the host issues it: the operation word, its operand record (R71, R74), and how many operations it is
issued within (R61, R233; log 11): 0 between operations, 1 from a consumer that runs during an operation, 2 from a
consumer that runs during an operation issued so, and so on. -/
structure Request where
  word     : Half
  operands : OperandRecord
  depth    : Nat
  deriving DecidableEq, Repr

/-- What the host does: it issues an operation that takes effect whole (R70, R240), or one whose sink transactions are
issued in turns among what else happens, and gives an encoder its turn to issue the next one (R234; log 10); it
constructs a decoder with or without a buffer (R222) or an encoder with a sink of its own or an existing one (R203,
R224), writes a byte of a buffer (R235), or begins or ends the lifetime of the memory a handle names (R231). -/
inductive HostAction where
  | op (r : Request)
  | opInTurns (r : Request)
  | turn (encoder : Nat)
  | newDecoder (buffer : Option Assignment)
  | newEncoder (shared : Option Nat)
  | writeBuffer (handle : BufHandle) (offset : Word) (b : Byte)
  | lend (handle : BufHandle) (size : Nat)
  | endLifetime (handle : BufHandle)
  deriving DecidableEq, Repr

/-- The whole machine: decoders, encoders, sinks, host memory, the last result record (R75), and what the host will do
next, in order (R61; log 1). `chain` says whose operations a request can be issued within (R61, R233; log 11): the
decoders and encoders of the operations the last operation was issued within, outermost first, then its own. -/
structure State where
  decs   : List Decoder
  encs   : List Encoder
  sinks  : List Sink
  mem    : HostMem
  result : Result
  queue  : List HostAction
  chain  : List Agent
  deriving DecidableEq, Repr

/-- Why the machine stops. None of these is a framing error: those are event records (R190). -/
inductive Fault where
  /-- A write to a buffer's memory after its lifetime ended (R231, I8). Raised by `bufWrite`. Safe: the spec says that it
  faults. -/
  | writeToReleasedBuffer
  /-- A write beyond the memory the handle names (R224, R231, I17). Raised by `bufWrite`. Safe: the spec says that it
  faults. -/
  | writeBeyondNamedMemory
  /-- A sink transaction that never returns: the operation is stuck (I13). Raised by `issue`. Safe: the spec asks for
  the stuck run; that `ACQUIRE` and `RELEASE` too may never return is the model's choice (log 9). -/
  | sinkNeverReturns
  deriving DecidableEq, Repr

/-- Why an operation has no meaning. -/
inductive Refusal where
  /-- An operation rejected by name in its arm. Raised by `exec` only. Safe. -/
  | notModelled (mnemonic : String)
  /-- The word with its operands spells no operation (R76, R172). Raised by `acceptRequest`. Safe: the spec says refuse. -/
  | noOperation (e : DecodeError)
  /-- `ENC_ENCODE` with a payload of 2^32 bytes or more (R172). Raised by `encoderAndSink`. Safe: the spec says refuse. -/
  | payloadTooLong
  /-- An operation issued to a decoder or encoder while an operation of it is in progress (R61, R233, I9). Raised by
  `acceptRequest`. Safe: the spec says refuse. -/
  | reentrant
  /-- An operation for a decoder or encoder that was never constructed (R203, R220). Raised by the meanings and `encoderTurn`. Safe. -/
  | noSuchAgent
  /-- An encoder without an attached sink (R224). Raised by `encoderAndSink`, `encoderTurn` and `hostNewEncoder`. Safe. -/
  | noSuchSink
  deriving DecidableEq, Repr

/-- The machine right after reset: one decoder constructed without a buffer and one encoder with its sink, each at
power-on (R44, R222; the numbers are OPEN, log 3), nothing known of host memory, no operation issued. -/
def State.reset : State :=
  { decs := [Decoder.powerOn], encs := [{ sink := 0, pending := [] }], sinks := [Sink.empty], mem := HostMem.powerOn,
    result := .noResult, queue := [], chain := [] }

end Sys2Proof.Machine
end

