-- ==== Sys2Proof/Machine/Flags.lean ====
section
/-! DEFINITION. The block has no flags and no condition codes (R39). Its one status output is `IDLE` (R40); the codes
of the parse states and error kinds stand here too (R79, R83). -/

namespace Sys2Proof.Machine

/-- `IDLE`: `ST == AwaitMarker1` (R40, R141). Not stored. -/
def Decoder.idle (d : Decoder) : Bool := d.st == .awaitMarker1

/-- The 4-bit code of a parse state (R79). -/
def ParseState.code : ParseState → BitVec 4
  | .awaitMarker1 => 0#4
  | .awaitMarker2 => 1#4
  | .commandHigh => 2#4
  | .commandLow => 3#4
  | .lengthByte0 => 4#4
  | .lengthByte1 => 5#4
  | .lengthByte2 => 6#4
  | .lengthByte3 => 7#4
  | .payload => 8#4
  | .checksumHigh => 9#4
  | .checksumLow => 10#4
  | .unused k => BitVec.ofNat 4 (11 + k.val)

/-- The parse state of a 4-bit code (R79). -/
def ParseState.ofCode (c : BitVec 4) : ParseState :=
  if c = 0#4 then .awaitMarker1
  else if c = 1#4 then .awaitMarker2
  else if c = 2#4 then .commandHigh
  else if c = 3#4 then .commandLow
  else if c = 4#4 then .lengthByte0
  else if c = 5#4 then .lengthByte1
  else if c = 6#4 then .lengthByte2
  else if c = 7#4 then .lengthByte3
  else if c = 8#4 then .payload
  else if c = 9#4 then .checksumHigh
  else if c = 10#4 then .checksumLow
  else if c = 11#4 then .unused 0
  else if c = 12#4 then .unused 1
  else if c = 13#4 then .unused 2
  else if c = 14#4 then .unused 3
  else .unused 4

/-- The 3-bit code of an error kind (R83): 0 and 7 are never emitted. -/
def ErrorKind.code : ErrorKind → BitVec 3
  | .badMarker1 => 1#3
  | .badMarker2 => 2#3
  | .lengthTooLarge => 3#3
  | .payloadOverrun => 4#3
  | .checksumMismatch => 5#3
  | .noBuffer => 6#3

end Sys2Proof.Machine
end

