-- ==== Sys2Proof/Machine/Operands.lean ====
section
/-! DEFINITION. How multi-byte values are assembled from wire bytes and split into them (R53, R77, R78). -/

namespace Sys2Proof.Machine

/-- `trunc_16((r << 8) | b)`: shift a wire byte into a 16-bit register (R77). -/
def shiftIn16 (r : Half) (b : Byte) : Half := (r <<< 8) ||| b.setWidth 16

/-- `trunc_32((r << 8) | b)`: shift a wire byte into a 32-bit register (R77). -/
def shiftIn32 (r : Word) (b : Byte) : Word := (r <<< 8) ||| b.setWidth 32

/-- `v[15:8]`, `v[7:0]` (R78). -/
def bytes16 (v : Half) : List Byte := [v.extractLsb' 8 8, v.extractLsb' 0 8]

/-- `v[31:24]`, `v[23:16]`, `v[15:8]`, `v[7:0]` (R78). -/
def bytes32 (v : Word) : List Byte :=
  [v.extractLsb' 24 8, v.extractLsb' 16 8, v.extractLsb' 8 8, v.extractLsb' 0 8]

/-- The count `N` of a byte list as the 32-bit operand of `ENC_ENCODE` (R74). -/
def count32 (bytes : List Byte) : Word := BitVec.ofNat 32 bytes.length

end Sys2Proof.Machine
end

