-- ==== Sys2Proof/Machine/Ops.lean ====
section
/-! DEFINITION. The named operations over host memory, decoder registers, the event output and sinks that the meanings
share. The block's exception mechanism is `raise` (R190); it has no return from an exception (R198). -/

namespace Sys2Proof.Machine

/-! ### Lists of pairs with strictly rising keys -/

/-- The value listed under a key, if any. -/
def lookup {α : Type} (k : Nat) : List (Nat × α) → Option α
  | [] => none
  | (j, v) :: rest => if j = k then some v else lookup k rest

/-- List a value under a key, in place of what is listed there, keeping the keys strictly rising. -/
def store {α : Type} (k : Nat) (v : α) : List (Nat × α) → List (Nat × α)
  | [] => [(k, v)]
  | (j, w) :: rest =>
    if k < j then (k, v) :: (j, w) :: rest
    else if k = j then (k, v) :: rest
    else (j, w) :: store k v rest

/-- The canonical form: strictly rising keys. -/
abbrev risingKeys {α : Type} (m : List (Nat × α)) : Prop := m.Pairwise (fun p q => p.1 < q.1)

/-- The canonical form of host memory (log 5): strictly rising keys. An unlisted byte has no value of its own (what it
reads as is a free value), so no entry is ever equal to it. -/
abbrev Memory.wf (cells : List Host.Cell) : Prop := risingKeys cells

/-! ### Host memory: the receive buffers (R50, R51, R59) -/

/-- The key of offset `i` of the buffer named `h`: offsets are 32 bits (R50), and distinct handles name disjoint
memory (log 4). -/
def bufKey (h : BufHandle) (i : Nat) : Nat := h * 4294967296 + i

/-- The byte at offset `i` of `h`, where something has written it. -/
def HostMem.known (m : HostMem) (h : BufHandle) (i : Nat) : Option Byte := lookup (bufKey h i) m.cells

/-- `MemRead` of one byte (R11): the byte written there, else a free value (R44, I7; log 5). -/
def HostMem.readByte (m : HostMem) (h : BufHandle) (i : Nat) : Byte :=
  (m.known h i).getD (Config.unwrittenByte m.draws h i)

/-- `MemRead(RXBUF, 0, n)` (R11): the bytes at offsets 0 to n - 1. -/
def HostMem.readBytes (m : HostMem) (h : BufHandle) (n : Nat) : List Byte :=
  (List.range n).map (m.readByte h)

/-- Why a write at offset `i` of `h` has no meaning, if it has none: the memory's lifetime has ended (R231, I8), or
the handle names fewer bytes (I17). -/
def HostMem.writeFault (m : HostMem) (h : BufHandle) (i : Nat) : Option Fault :=
  match lookup h m.extents with
  | none => none
  | some none => some .writeToReleasedBuffer
  | some (some n) => if i < n then none else some .writeBeyondNamedMemory

/-- `MemWrite(RXBUF, i, 1, b)` (R11). -/
def bufWrite (h : BufHandle) (i : Nat) (b : Byte) (m : HostMem) : Except Fault HostMem :=
  match m.writeFault h i with
  | some f => .error f
  | none => .ok { m with cells := store (bufKey h i) b m.cells }

/-- Single-byte writes at ascending offsets from `i` on (R57). -/
def bufWriteBlock (h : BufHandle) : Nat → List Byte → HostMem → Except Fault HostMem
  | _, [], m => .ok m
  | i, b :: bs, m =>
    match bufWrite h i b m with
    | .error f => .error f
    | .ok m' => bufWriteBlock h (i + 1) bs m'

/-- Every offset below `n` of `h` can be written: the host's duty of R224 and R231. -/
abbrev HostMem.writable (m : HostMem) (h : BufHandle) (n : Nat) : Prop := ∀ i, i < n → m.writeFault h i = none

/-- Forget what is known of the bytes of `h`: its memory is another from now on. -/
def HostMem.forget (h : BufHandle) (m : HostMem) : HostMem :=
  { m with cells := m.cells.filter (fun c => c.1 / 4294967296 != h) }

/-! ### Decoder registers -/

/-- `BUF_VALID` (R32). -/
def Decoder.bufValid (d : Decoder) : Bool := d.buffer.isSome

/-- `BUF_HANDLE`, or none (R33). -/
def Decoder.bufHandle (d : Decoder) : Option BufHandle := d.buffer.map Assignment.handle

/-- `BUF_CAP`; 0 when no buffer is assigned (R34, R142). -/
def Decoder.bufCap (d : Decoder) : Word :=
  match d.buffer with
  | none => 0#32
  | some a => a.cap

/-- `full_reset()` (R31): it keeps `SOM`, the configuration registers and the event output. -/
def fullReset (d : Decoder) : Decoder :=
  { d with st := .awaitMarker1, cmd := 0x0000#16, len := 0#32, idx := 0#32, crc := Config.crcSeed, rxcrc := 0x0000#16 }

/-- What `DEC_SET_BUFFER` does to a decoder (R142). -/
def setBuffer (v : Bool) (handle : BufHandle) (cap : Word) (d : Decoder) : Decoder :=
  if v then { d with buffer := some { handle := handle, cap := cap } } else { d with buffer := none }

/-! ### The event output -/

/-- `raise K(diag)` (R12, R190, R193): one `Error` record, its diagnostics the registers as they are now. It changes
nothing else: no control transfer, no mode, no saved state but the record (R197). -/
def raise (k : ErrorKind) (d : Decoder) : Decoder :=
  { d with events := d.events ++ [.error k d.cmd d.len d.som d.bufHandle] }

/-- `emit Frame(CMD, LEN, MemRead(RXBUF, 0, LEN))` (R12, R66, R130), the snapshot read from the buffer `h`. Taking a
snapshot advances the counter of the free values (log 5). -/
def emitFrame (h : BufHandle) (c : DecCtx) : DecCtx :=
  { dec := { c.dec with
      events := c.dec.events ++ [.frame c.dec.cmd c.dec.len (c.mem.readBytes h c.dec.len.toNat)] }
    mem := { c.mem with draws := c.mem.draws + 1 } }

/-! ### Sinks -/

/-- Hand one transaction to the sink (R56): it is appended to the sink's sequence (R37), and `bytes_written` is not
read (R237). `none` when the transaction never returns (I13). -/
def issue (tx : SinkTx) (k : Sink) : Option Sink :=
  match k.answers with
  | [] => some { k with log := k.log ++ [tx] }
  | .returned _ :: rest => some { log := k.log ++ [tx], answers := rest }
  | .never :: _ => none

/-- Hand transactions to the sink in order (R37). -/
def issueAll : List SinkTx → Sink → Option Sink
  | [], k => some k
  | tx :: txs, k =>
    match issue tx k with
    | none => none
    | some k' => issueAll txs k'

/-! ### Decoders of the state -/

/-- The state after an operation on decoder `k` that changes that decoder only, with no result record (R75). -/
def onDecoder (k : Nat) (f : Decoder → Decoder) (s : State) : Host.Outcome State Fault Refusal :=
  match s.decs[k]? with
  | none => .refused .noSuchAgent
  | some d => .next { s with decs := s.decs.set k (f d), result := .noResult }

end Sys2Proof.Machine
end

