-- ==== Sys2Proof/Machine/Checksum.lean ====
section
/-! DEFINITION. The Checksum Engine (40_checksum.md): the fold, `CRC_UPDATE`, the frame checksum. -/

namespace Sys2Proof.Machine

/-- `fold(c, b)` (R100), every step truncated to 16 bits. -/
def fold (c : Half) (b : Byte) : Half :=
  let x := (c >>> 8) ^^^ b.setWidth 16
  let y := x ^^^ (x >>> 4)
  (c <<< 8) ^^^ (y <<< 12) ^^^ (y <<< 5) ^^^ y

/-- The function `CRC_UPDATE` computes (R102, R103): seed if `r`, then fold each byte in order. -/
def update (acc : Half) (bytes : List Byte) (r : Bool) : Half :=
  bytes.foldl fold (if r then Config.crcSeed else acc)

/-- One step of polynomial division by `CRC_POLY`, most significant bit first (R101 (a)). -/
def polyStep (c : Half) : Half := if c.getLsbD 15 then (c <<< 1) ^^^ Config.crcPoly else c <<< 1

/-- `fold_poly(c, b)`, the polynomial form (R101 (a)). Not a separate requirement: `fold` is the definition. -/
def foldPoly (c : Half) (b : Byte) : Half :=
  polyStep (polyStep (polyStep (polyStep (polyStep (polyStep (polyStep (polyStep
    (c ^^^ (b.setWidth 16 <<< 8)))))))))

/-- `FCS(C, L, P)`, the frame checksum (R104). -/
def fcs (cmd : Half) (len : Word) (payload : List Byte) : Half :=
  update 0x0000#16 (bytes16 cmd ++ bytes32 len ++ payload) true

/-- `CRC_UPDATE` (R103): the result record is the new accumulator; no state of the block is written. -/
def execCrcUpdate (r : Bool) (acc : Half) (bytes : List Byte) (s : State) : Host.Outcome State Fault Refusal :=
  .next { s with result := .acc (update acc bytes r) }

end Sys2Proof.Machine
end

