-- ==== Sys2Proof/Machine/FrameDecoder.lean ====
section
/-! DEFINITION. The Frame Decoder (41_decoder.md): one definition per parse state, `DEC_STEP`, the block copy,
`DEC_FEED`, and the control operations. -/

namespace Sys2Proof.Machine

/-- No buffer assigned, in any state (R113). -/
def noBufferStep (d : Decoder) : Decoder := raise .noBuffer d

/-- `AwaitMarker1` (R120). -/
def stepAwaitMarker1 (b : Byte) (d : Decoder) : Decoder :=
  let d1 := { d with som := b ++ 0x00#8 }
  if b = Config.marker1 then { d1 with st := .awaitMarker2 } else raise .badMarker1 d1

/-- `AwaitMarker2` (R121): the rejected byte is discarded (90_conflicts.md C1). -/
def stepAwaitMarker2 (b : Byte) (d : Decoder) : Decoder :=
  let d1 := { d with som := d.som.extractLsb' 8 8 ++ b }
  if b = Config.marker2 then { fullReset d1 with st := .commandHigh } else fullReset (raise .badMarker2 d1)

/-- `CommandHigh` (R122). -/
def stepCommandHigh (b : Byte) (d : Decoder) : Decoder :=
  { d with cmd := shiftIn16 d.cmd b, crc := fold d.crc b, st := .commandLow }

/-- `CommandLow` (R123). -/
def stepCommandLow (b : Byte) (d : Decoder) : Decoder :=
  { d with cmd := shiftIn16 d.cmd b, crc := fold d.crc b, st := .lengthByte0 }

/-- `LengthByte0` (R124). -/
def stepLengthByte0 (b : Byte) (d : Decoder) : Decoder :=
  { d with len := shiftIn32 d.len b, crc := fold d.crc b, st := .lengthByte1 }

/-- `LengthByte1` (R125). -/
def stepLengthByte1 (b : Byte) (d : Decoder) : Decoder :=
  { d with len := shiftIn32 d.len b, crc := fold d.crc b, st := .lengthByte2 }

/-- `LengthByte2` (R126). -/
def stepLengthByte2 (b : Byte) (d : Decoder) : Decoder :=
  { d with len := shiftIn32 d.len b, crc := fold d.crc b, st := .lengthByte3 }

/-- `LengthByte3` (R127): the last length byte, then the length checks. -/
def stepLengthByte3 (b : Byte) (d : Decoder) : Decoder :=
  let d1 := { d with len := shiftIn32 d.len b, crc := fold d.crc b }
  if d1.bufCap < d1.len then fullReset (raise .lengthTooLarge d1)
  else if d1.len = 0#32 then { d1 with st := .checksumHigh }
  else { d1 with st := .payload }

/-- `Payload` (R128): the bound checks stand before the write. `a` is the assigned buffer. -/
def stepPayload (a : Assignment) (b : Byte) (c : DecCtx) : Except Fault DecCtx :=
  if c.dec.len ≤ c.dec.idx ∨ a.cap ≤ c.dec.idx then
    .ok { c with dec := fullReset (raise .payloadOverrun c.dec) }
  else
    match bufWrite a.handle c.dec.idx.toNat b c.mem with
    | .error f => .error f
    | .ok m =>
      .ok
        { dec := { c.dec with
            crc := fold c.dec.crc b
            idx := c.dec.idx + 1#32
            st := if c.dec.idx + 1#32 = c.dec.len then .checksumHigh else .payload }
          mem := m }

/-- `ChecksumHigh` (R129): the checksum bytes are not folded. -/
def stepChecksumHigh (b : Byte) (d : Decoder) : Decoder :=
  { d with rxcrc := shiftIn16 d.rxcrc b, st := .checksumLow }

/-- `ChecksumLow` (R130): the verdict, given before the full reset (D16). -/
def stepChecksumLow (a : Assignment) (b : Byte) (c : DecCtx) : DecCtx :=
  let c1 := { c with dec := { c.dec with rxcrc := shiftIn16 c.dec.rxcrc b } }
  let c2 := if c1.dec.rxcrc = c1.dec.crc then emitFrame a.handle c1
            else { c1 with dec := raise .checksumMismatch c1.dec }
  { c2 with dec := fullReset c2.dec }

/-- `DEC_STEP(b)` (R112): the buffer assignment is checked first, then the parse state decides. -/
def decStep (b : Byte) (c : DecCtx) : Except Fault DecCtx :=
  match c.dec.buffer with
  | none => .ok { c with dec := noBufferStep c.dec }
  | some a =>
    match c.dec.st with
    | .awaitMarker1 => .ok { c with dec := stepAwaitMarker1 b c.dec }
    | .awaitMarker2 => .ok { c with dec := stepAwaitMarker2 b c.dec }
    | .commandHigh => .ok { c with dec := stepCommandHigh b c.dec }
    | .commandLow => .ok { c with dec := stepCommandLow b c.dec }
    | .lengthByte0 => .ok { c with dec := stepLengthByte0 b c.dec }
    | .lengthByte1 => .ok { c with dec := stepLengthByte1 b c.dec }
    | .lengthByte2 => .ok { c with dec := stepLengthByte2 b c.dec }
    | .lengthByte3 => .ok { c with dec := stepLengthByte3 b c.dec }
    | .payload => stepPayload a b c
    | .checksumHigh => .ok { c with dec := stepChecksumHigh b c.dec }
    | .checksumLow => .ok (stepChecksumLow a b c)
    | .unused _ => .ok { c with dec := fullReset c.dec }

/-- `DEC_STEP` for each byte in order: feeding without the block-copy path (R110 with `BLOCK_PATH` false). -/
def decSteps : List Byte → DecCtx → Except Fault DecCtx
  | [], c => .ok c
  | b :: bs, c =>
    match decStep b c with
    | .error f => .error f
    | .ok c1 => decSteps bs c1

/-- `BLOCK_COPY()` (R131) of the bytes `block`, which are the next `LEN` bytes of the operand. -/
def blockCopy (a : Assignment) (block : List Byte) (c : DecCtx) : Except Fault DecCtx :=
  match bufWriteBlock a.handle 0 block c.mem with
  | .error f => .error f
  | .ok m =>
    .ok
      { dec := { c.dec with
          crc := update c.dec.crc (m.readBytes a.handle c.dec.len.toNat) false
          idx := c.dec.len
          st := .checksumHigh }
        mem := m }

/-- Whether `DEC_FEED` performs the block copy after a step from `was` to `now` with `rest` unconsumed (R110, R131),
and into which buffer. -/
def blockReady (path : Bool) (was now : Decoder) (rest : List Byte) : Option Assignment :=
  if path && was.st == .lengthByte3 && now.st == .payload && decide (now.len.toNat ≤ rest.length) then now.buffer
  else none

/-- The loop of `DEC_FEED` (R110). The number counts the bytes at the head of the operand that a block copy has
already consumed (R52: no byte is read twice). -/
def feedLoop (path : Bool) : Nat → List Byte → DecCtx → Except Fault DecCtx
  | _, [], c => .ok c
  | n + 1, _ :: bs, c => feedLoop path n bs c
  | 0, b :: bs, c =>
    match decStep b c with
    | .error f => .error f
    | .ok c1 =>
      match blockReady path c.dec c1.dec bs with
      | none => feedLoop path 0 bs c1
      | some a =>
        match blockCopy a (bs.take c1.dec.len.toNat) c1 with
        | .error f => .error f
        | .ok c2 => feedLoop path c1.dec.len.toNat bs c2

/-- `DEC_FEED` on a decoder and host memory (R110), with the parameter `BLOCK_PATH` (R7). -/
def feed (path : Bool) (bytes : List Byte) (c : DecCtx) : Except Fault DecCtx := feedLoop path 0 bytes c

/-- `DEC_FEED` (R110). -/
def execDecFeed (k : Nat) (bytes : List Byte) (s : State) : Host.Outcome State Fault Refusal :=
  match s.decs[k]? with
  | none => .refused .noSuchAgent
  | some d =>
    match feed Config.blockPath bytes { dec := d, mem := s.mem } with
    | .error f => .fault f
    | .ok c => .next { s with decs := s.decs.set k c.dec, mem := c.mem, result := .noResult }

/-- `DEC_RESET` (R140). -/
def execDecReset (k : Nat) (s : State) : Host.Outcome State Fault Refusal := onDecoder k fullReset s

/-- `DEC_IS_IDLE` (R141): the result record is `IDLE`; no state of the block is written. -/
def execDecIsIdle (k : Nat) (s : State) : Host.Outcome State Fault Refusal :=
  match s.decs[k]? with
  | none => .refused .noSuchAgent
  | some d => .next { s with result := .idle d.idle }

/-- `DEC_SET_BUFFER` (R142). -/
def execDecSetBuffer (k : Nat) (v : Bool) (handle : BufHandle) (cap : Word) (s : State) :
    Host.Outcome State Fault Refusal :=
  onDecoder k (setBuffer v handle cap) s

end Sys2Proof.Machine
end

