-- ==== Sys2Proof/Machine/FrameEncoder.lean ====
section
/-! DEFINITION. The Frame Encoder (42_encoder.md). -/

namespace Sys2Proof.Machine

/-- The eight header bytes (R170, R80). -/
def headerBytes (cmd : Half) (n : Word) : List Byte :=
  [Config.marker1, Config.marker2] ++ bytes16 cmd ++ bytes32 n

/-- `ECRC` as sent (R170): re-seeded at the command bytes, then continued over the length bytes and the payload. It is
a value of this operation alone (R36). -/
def encoderCrc (cmd : Half) (n : Word) (payload : List Byte) : Half :=
  update (update (update 0x0000#16 (bytes16 cmd) true) (bytes32 n) false) payload false

/-- The sink transactions of one `ENC_ENCODE`, in order (R170): 4 when the payload is empty, else 5. -/
def frameTransactions (cmd : Half) (payload : List Byte) : List SinkTx :=
  [.acquire, .write (headerBytes cmd (count32 payload))]
    ++ (if payload = [] then [] else [.write payload])
    ++ [.write (bytes16 (encoderCrc cmd (count32 payload) payload)), .release]

/-- The bytes of a transaction: of a `WRITE`, those it hands over (R84). -/
def SinkTx.bytes : SinkTx → List Byte
  | .acquire => []
  | .write bytes => bytes
  | .release => []

/-- `frame(<cmd>, [<bytes>])` (R86): the concatenation of the `WRITE` byte sequences. -/
def frameBytes (cmd : Half) (payload : List Byte) : List Byte :=
  (frameTransactions cmd payload).flatMap SinkTx.bytes

/-- The encoder `k` and its sink, for an `ENC_ENCODE` of that payload. A payload of 2^32 bytes or more is refused (R172). -/
def encoderAndSink (k : Nat) (payload : List Byte) (s : State) : Except Refusal (Encoder × Sink) :=
  if payload.length < 4294967296 then
    match s.encs[k]? with
    | none => .error .noSuchAgent
    | some e =>
      match s.sinks[e.sink]? with
      | none => .error .noSuchSink
      | some sink => .ok (e, sink)
  else .error .payloadTooLong

/-- `ENC_ENCODE` (R170), with nothing between its transactions. -/
def execEncEncode (k : Nat) (cmd : Half) (payload : List Byte) (s : State) : Host.Outcome State Fault Refusal :=
  match encoderAndSink k payload s with
  | .error r => .refused r
  | .ok (e, sink) =>
    match issueAll (frameTransactions cmd payload) sink with
    | none => .fault .sinkNeverReturns
    | some sink' => .next { s with sinks := s.sinks.set e.sink sink', result := .noResult }

/-! ### An encode in turns (R234; log 10) -/

/-- `ENC_ENCODE` is begun: its transactions are due, and none is issued yet. -/
def beginEncode (k : Nat) (cmd : Half) (payload : List Byte) (s : State) : Host.Outcome State Fault Refusal :=
  match encoderAndSink k payload s with
  | .error r => .refused r
  | .ok (e, _) => .next { s with encs := s.encs.set k { e with pending := frameTransactions cmd payload } }

/-- Encoder `k` issues the next transaction of its `ENC_ENCODE` in progress; with the last one the operation is complete.
An encoder with none to issue does nothing. -/
def encoderTurn (k : Nat) (s : State) : Host.Outcome State Fault Refusal :=
  match s.encs[k]? with
  | none => .refused .noSuchAgent
  | some e =>
    match e.pending with
    | [] => .next s
    | tx :: rest =>
      match s.sinks[e.sink]? with
      | none => .refused .noSuchSink
      | some sink =>
        match issue tx sink with
        | none => .fault .sinkNeverReturns
        | some sink' =>
          .next { s with
            encs := s.encs.set k { e with pending := rest }
            sinks := s.sinks.set e.sink sink'
            result := if rest = [] then .noResult else s.result }

end Sys2Proof.Machine
end

