-- ==== Sys2Proof/Machine/Dispatch.lean ====
section
/-! DEFINITION. The one dispatch from an operation to its meaning. -/

namespace Sys2Proof.Machine

def exec (i : Instr) (s : State) : Host.Outcome State Fault Refusal :=
  match i with
  | .crcUpdate r acc bytes => Sys2Proof.Machine.execCrcUpdate r acc bytes s
  | .decFeed dec bytes => Sys2Proof.Machine.execDecFeed dec bytes s
  | .decReset dec => Sys2Proof.Machine.execDecReset dec s
  | .decIsIdle dec => Sys2Proof.Machine.execDecIsIdle dec s
  | .decSetBuffer dec v handle cap => Sys2Proof.Machine.execDecSetBuffer dec v handle cap s
  | .encEncode enc cmd payload => Sys2Proof.Machine.execEncEncode enc cmd payload s

end Sys2Proof.Machine
end

