-- ==== Sys2Proof/WellFormed.lean ====
section
/-! DEFINITION. Which operations can be expressed at all. -/

namespace Sys2Proof

/-- R74: every operand has its width by its type, but for the count `N` of `ENC_ENCODE`, which is 32 bits
("A payload of 2^32 bytes or more cannot be expressed"). -/
def Instr.wellFormed : Instr → Bool
  | .crcUpdate _ _ _ => true
  | .decFeed _ _ => true
  | .decReset _ => true
  | .decIsIdle _ => true
  | .decSetBuffer _ _ _ _ => true
  | .encEncode _ _ payload => decide (payload.length < 4294967296)

end Sys2Proof
end

