-- ==== Sys2Proof/Decode.lean ====
section
/-! DEFINITION. Decoding an operation word with its operand record, and the encoder (R71 to R76). The operation word is
one 16-bit word, not bytes in a memory, so no byte order enters. -/

namespace Sys2Proof

/-- `W[7:0]`, the operation code (R71). -/
def opcField (w : Half) : Byte := w.extractLsb' 0 8

/-- `W[8]`, the flag (R71, R72). -/
def flagField (w : Half) : Bool := w.getLsbD 8

/-- `W[15:9]`, reserved (R71). -/
def rsvField (w : Half) : BitVec 7 := w.extractLsb' 9 7

/-- An operation whose `F` is reserved: the word is one only with `F = 0` (R72, R76). -/
def flagReserved (f : Bool) (i : Instr) : Except DecodeError Instr :=
  if f then .error .reservedFlag else .ok i

/-- Which operation the word spells, its operands taken from the record (R73, R74). -/
def decodeOpcode (w : Half) (r : OperandRecord) : Except DecodeError Instr :=
  let f := flagField w
  if rsvField w ≠ 0#7 then .error .reservedBits
  else if opcField w = 0x01#8 then .ok (.crcUpdate f r.acc r.bytes)
  else if opcField w = 0x10#8 then flagReserved f (.decFeed r.target r.bytes)
  else if opcField w = 0x11#8 then flagReserved f (.decReset r.target)
  else if opcField w = 0x12#8 then flagReserved f (.decIsIdle r.target)
  else if opcField w = 0x13#8 then .ok (.decSetBuffer r.target f r.handle r.cap)
  else if opcField w = 0x20#8 then flagReserved f (.encEncode r.target r.cmd r.bytes)
  else .error .unassignedOpcode

/-- The decoder: total, rejecting by name (R76), and answering well-formed operations only (R172). -/
def decode (w : Half) (r : OperandRecord) : Except DecodeError Instr :=
  match decodeOpcode w r with
  | .error e => .error e
  | .ok i => if i.wellFormed then .ok i else .error .payloadTooLong

/-- The operation word of an operation (R71 to R73). -/
def encodeWord : Instr → Half
  | .crcUpdate f _ _ => 0#7 ++ BitVec.ofBool f ++ 0x01#8
  | .decFeed _ _ => 0x0010#16
  | .decReset _ => 0x0011#16
  | .decIsIdle _ => 0x0012#16
  | .decSetBuffer _ f _ _ => 0#7 ++ BitVec.ofBool f ++ 0x13#8
  | .encEncode _ _ _ => 0x0020#16

/-- The operand record of an operation (R74); what it does not use is zero. -/
def encodeOperands : Instr → OperandRecord
  | .crcUpdate _ acc bytes => { OperandRecord.zero with acc := acc, bytes := bytes }
  | .decFeed d bytes => { OperandRecord.zero with target := d, bytes := bytes }
  | .decReset d => { OperandRecord.zero with target := d }
  | .decIsIdle d => { OperandRecord.zero with target := d }
  | .decSetBuffer d _ handle cap => { OperandRecord.zero with target := d, handle := handle, cap := cap }
  | .encEncode e cmd payload => { OperandRecord.zero with target := e, cmd := cmd, bytes := payload }

/-- A row of the operation table of R73: a word spells the operation exactly when `W & mask = match`. -/
abbrev OpcodeRow := Half × Half

/-- The row (match, mask) of each operation (R73). -/
def tableRow : Instr → OpcodeRow
  | .crcUpdate _ _ _ => (0x0001#16, 0xFEFF#16)
  | .decFeed _ _ => (0x0010#16, 0xFFFF#16)
  | .decReset _ => (0x0011#16, 0xFFFF#16)
  | .decIsIdle _ => (0x0012#16, 0xFFFF#16)
  | .decSetBuffer _ _ _ _ => (0x0013#16, 0xFEFF#16)
  | .encEncode _ _ _ => (0x0020#16, 0xFFFF#16)

/-- All rows of R73, in its order. -/
def opcodeTable : List OpcodeRow :=
  [(0x0001#16, 0xFEFF#16), (0x0010#16, 0xFFFF#16), (0x0011#16, 0xFFFF#16),
   (0x0012#16, 0xFFFF#16), (0x0013#16, 0xFEFF#16), (0x0020#16, 0xFFFF#16)]

/-- `(W & mask) = match` (R73). -/
def OpcodeRow.spells (row : OpcodeRow) (w : Half) : Bool := w &&& row.2 == row.1

/-- The operation the decoder reads from an operation word of at most 16 bits, with the zero operand record.
An operation is one fixed length, 16 bits (R71): bits that do not exist are refused. -/
def decodeTableWord (nbits w : Nat) : Option Instr :=
  if nbits ≤ 16 ∧ w < 2 ^ nbits then
    match decode (BitVec.ofNat 16 w) OperandRecord.zero with
    | .ok i => some i
    | .error _ => none
  else none

end Sys2Proof
end

