-- ==== Sys2Proof/Machine/HostActs.lean ====
section
/-! DEFINITION. What the host does: issuing an operation (R61, R76, R233), constructing decoders and encoders (R220,
R222, R224), writing a buffer (R235), and a buffer's lifetime (R231). -/

namespace Sys2Proof.Machine

/-- The decoder or encoder an operation is for; `CRC_UPDATE` is for none (R35, R203). -/
def target : Instr → Option Agent
  | .crcUpdate _ _ _ => none
  | .decFeed d _ => some (.decoder d)
  | .decReset d => some (.decoder d)
  | .decIsIdle d => some (.decoder d)
  | .decSetBuffer d _ _ _ => some (.decoder d)
  | .encEncode e _ _ => some (.encoder e)

/-- The decoders and encoders of all the operations a request is issued within, outermost first (R61, R233; log 11). A
depth beyond the operations there are counts as within all of them. -/
def State.enclosing (s : State) (r : Request) : List Agent := s.chain.take r.depth

/-- An `ENC_ENCODE` performed in turns is in progress on an encoder (R61, R234; log 10). -/
def State.busy (s : State) : Agent → Bool
  | .decoder _ => false
  | .encoder k =>
    match s.encs[k]? with
    | none => false
    | some e => !e.pending.isEmpty

/-- The operation is for a decoder or encoder of which an operation is in progress: one it is issued within, at whatever
level (R61, R233), or one performed in turns. -/
def reentrant (s : State) (r : Request) (i : Instr) : Bool :=
  match target i with
  | none => false
  | some g => (s.enclosing r).contains g || s.busy g

/-- The operation a request spells (R71 to R76), refused if it spells none, or if it is issued to a decoder or encoder
while an operation of that one is in progress (R233). One issued during operations of others only runs after them
(log 11). -/
def acceptRequest (s : State) (r : Request) : Except Refusal Instr :=
  match decode r.word r.operands with
  | .error e => .error (.noOperation e)
  | .ok i => if reentrant s r i then .error .reentrant else .ok i

/-- The state an accepted operation is performed on: its request has left the queue, and an operation issued during it
is issued within it and within all it is issued within (R233). `CRC_UPDATE` is an operation of no decoder or encoder. -/
def State.enter (s : State) (r : Request) (i : Instr) (rest : List HostAction) : State :=
  { s with queue := rest, chain := s.enclosing r ++ (target i).toList }

/-- Between operations the block does nothing and keeps its state (R205). -/
def hostIdle (s : State) : Host.Outcome State Fault Refusal := .next s

/-- A newly constructed decoder (R220): the power-on state, then `DEC_SET_BUFFER` with `V = 1` if it is constructed with
a buffer (R222). -/
def constructDecoder (buffer : Option Assignment) : Decoder :=
  match buffer with
  | none => Decoder.powerOn
  | some a => setBuffer true a.handle a.cap Decoder.powerOn

/-- A decoder is constructed (R220, R222). -/
def hostNewDecoder (buffer : Option Assignment) (s : State) : Host.Outcome State Fault Refusal :=
  .next { s with decs := s.decs ++ [constructDecoder buffer] }

/-- An encoder is constructed with a sink: a new one, or one the host makes encoders share (R203, R224). -/
def hostNewEncoder (shared : Option Nat) (s : State) : Host.Outcome State Fault Refusal :=
  match shared with
  | none => .next { s with encs := s.encs ++ [{ sink := s.sinks.length, pending := [] }], sinks := s.sinks ++ [Sink.empty] }
  | some k =>
    if k < s.sinks.length then .next { s with encs := s.encs ++ [{ sink := k, pending := [] }] } else .refused .noSuchSink

/-- The host writes a byte of a buffer between operations (R235). -/
def hostWriteBuffer (h : BufHandle) (i : Word) (b : Byte) (s : State) : Host.Outcome State Fault Refusal :=
  match bufWrite h i.toNat b s.mem with
  | .error f => .fault f
  | .ok m => .next { s with mem := m }

/-- From now on the handle names memory of so many bytes, of which nothing is known (R224, R231, R44). -/
def hostLend (h : BufHandle) (size : Nat) (s : State) : Host.Outcome State Fault Refusal :=
  .next { s with mem := { s.mem.forget h with extents := store h (some size) s.mem.extents } }

/-- The lifetime of the memory the handle names ends (R231, I8). -/
def hostEndLifetime (h : BufHandle) (s : State) : Host.Outcome State Fault Refusal :=
  .next { s with mem := { s.mem.forget h with extents := store h none s.mem.extents } }

end Sys2Proof.Machine
end

