-- ==== Sys2Proof/Machine/Turns.lean ====
section
/-! DEFINITION. An operation whose sink transactions are issued in turns, so that what else happens can come between them
(R234; log 10). -/

namespace Sys2Proof.Machine

/-- Perform an operation in turns: an `ENC_ENCODE` is begun, and `encoderTurn` issues its transactions one by one. Every
other operation has no sink transaction and takes effect whole. -/
def performInTurns (i : Instr) (s : State) : Host.Outcome State Fault Refusal :=
  match i with
  | .encEncode k cmd payload => beginEncode k cmd payload s
  | .crcUpdate _ _ _ => exec i s
  | .decFeed _ _ => exec i s
  | .decReset _ => exec i s
  | .decIsIdle _ => exec i s
  | .decSetBuffer _ _ _ _ => exec i s

end Sys2Proof.Machine
end

