-- ==== Sys2Proof/Machine/Step.lean ====
section
/-! DEFINITION. One step of the machine: the next thing the host does (R61); an operation to completion (R240), or, in turns, up to
its next sink transaction (R234). -/

namespace Sys2Proof.Machine

/-- The request that carries an operation word with the zero operand record, issued by the host between operations. -/
def Request.ofTableWord (nbits w : Nat) : Request :=
  { word := BitVec.ofNat 16 (w % 2 ^ nbits), operands := OperandRecord.zero, depth := 0 }

/-- The next act of the host is to issue that word (log 1). -/
def State.withFetchWord (s : State) (nbits w : Nat) : State :=
  { s with queue := .op (Request.ofTableWord nbits w) :: s.queue }

/-- One step: the host's next act leaves the queue and is performed; with none, nothing happens (R205). -/
def step (s : State) : Host.Outcome State Fault Refusal :=
  match s.queue with
  | [] => hostIdle s
  | .op r :: rest =>
    match acceptRequest s r with
    | .error e => .refused e
    | .ok i => exec i (s.enter r i rest)
  | .opInTurns r :: rest =>
    match acceptRequest s r with
    | .error e => .refused e
    | .ok i => performInTurns i (s.enter r i rest)
  | .turn k :: rest => encoderTurn k { s with queue := rest }
  | .newDecoder buffer :: rest => hostNewDecoder buffer { s with queue := rest }
  | .newEncoder shared :: rest => hostNewEncoder shared { s with queue := rest }
  | .writeBuffer h i b :: rest => hostWriteBuffer h i b { s with queue := rest }
  | .lend h size :: rest => hostLend h size { s with queue := rest }
  | .endLifetime h :: rest => hostEndLifetime h { s with queue := rest }

end Sys2Proof.Machine
end

