-- ==== Sys2Proof/Machine/Assembly.lean ====
section
/-! DEFINITION. The textual notation of host programs (R85) and its pseudo-operations (R86): a line of text to the
request it stands for. The notation is the spec's own and the machine never reads it. -/

namespace Sys2Proof.Machine

/-! ### Lines as abstract syntax -/

/-- What a line stands for, for the decoder or encoder `k` (R85, R86). A `dec_set_buffer 1, none, ...` assigns no
buffer and stands for nothing. -/
def expandAsm (k : Nat) : AsmOp → Option Instr
  | .crcUpdate acc r bytes => some (.crcUpdate r acc bytes)
  | .decFeed bytes => some (.decFeed k bytes)
  | .decReset => some (.decReset k)
  | .decIsIdle => some (.decIsIdle k)
  | .decSetBuffer true none _ => none
  | .decSetBuffer true (some h) cap => some (.decSetBuffer k true h cap)
  | .decSetBuffer false h cap => some (.decSetBuffer k false (h.getD 0) cap)
  | .encEncode cmd bytes => some (.encEncode k cmd bytes)
  | .crcSeed => some (.crcUpdate true 0x0000#16 [])
  | .crcFold acc b => some (.crcUpdate false acc [b])
  | .decClearBuffer => some (.decSetBuffer k false 0 0#32)

/-- The request the host issues for an operation: its word (R73) and its operand record (R74). -/
def requestOf (i : Instr) : Request := { word := encodeWord i, operands := encodeOperands i, depth := 0 }

/-! ### Text to lines -/

/-- A word of a line. -/
abbrev Token := List Char

/-- Close the word read so far (kept in reverse). -/
def closeToken (acc : List Char) (rest : List Token) : List Token := if acc = [] then rest else acc.reverse :: rest

/-- Split a line into words; brackets are words, commas and spaces only separate, `;` starts a comment (R85). -/
def tokens (acc : List Char) : List Char → List Token
  | [] => closeToken acc []
  | c :: cs =>
    if c = ';' then closeToken acc []
    else if c = ' ' ∨ c = ',' then closeToken acc (tokens [] cs)
    else if c = '[' ∨ c = ']' ∨ c = '(' ∨ c = ')' then closeToken acc ([c] :: tokens [] cs)
    else tokens (c :: acc) cs

/-- The value of a hexadecimal digit. -/
def hexDigit (c : Char) : Option Nat :=
  if '0' ≤ c ∧ c ≤ '9' then some (c.toNat - 48)
  else if 'a' ≤ c ∧ c ≤ 'f' then some (c.toNat - 87)
  else if 'A' ≤ c ∧ c ≤ 'F' then some (c.toNat - 55)
  else none

/-- Digits in a base, most significant first, onto a value read so far. -/
def digits (base : Nat) : Nat → List Char → Option Nat
  | v, [] => some v
  | v, c :: cs =>
    match hexDigit c with
    | none => none
    | some d => if d < base then digits base (v * base + d) cs else none

/-- A number: hexadecimal with `0x`, or decimal (R85). -/
def number : Token → Option Nat
  | [] => none
  | '0' :: 'x' :: c :: cs => digits 16 0 (c :: cs)
  | c :: cs => digits 10 0 (c :: cs)

/-- A number that a field of so many bits holds. -/
def numberBits (w : Nat) (t : Token) : Option (BitVec w) :=
  match number t with
  | none => none
  | some n => if n < 2 ^ w then some (BitVec.ofNat w n) else none

/-- `0` or `1` (R85). -/
def flagToken (t : Token) : Option Bool :=
  if t = ['0'] then some false else if t = ['1'] then some true else none

/-- A two-digit hexadecimal byte (R85). -/
def byteToken (t : Token) : Option Byte :=
  match t with
  | [a, b] => (digits 16 0 [a, b]).map (BitVec.ofNat 8)
  | _ => none

/-- The bytes of a list up to its closing bracket, and the words after it. -/
def bytesUntilBracket : List Token → Option (List Byte × List Token)
  | [] => none
  | t :: ts =>
    if t = [']'] then some ([], ts)
    else
      match byteToken t, bytesUntilBracket ts with
      | some b, some (bs, rest) => some (b :: bs, rest)
      | _, _ => none

/-- A byte list: `[...]` (R85), or `frame(<cmd>, [...])` (R86). -/
def byteList : List Token → Option (List Byte × List Token)
  | [] => none
  | t :: ts =>
    if t = ['['] then bytesUntilBracket ts
    else if t = "frame".toList then
      match ts with
      | paren :: cmd :: bracket :: rest =>
        if paren = ['('] ∧ bracket = ['['] then
          match numberBits 16 cmd, bytesUntilBracket rest with
          | some c, some (bs, close :: rest') => if close = [')'] then some (frameBytes c bs, rest') else none
          | _, _ => none
        else none
      | _ => none
    else none

/-- The byte list that ends a line. -/
def lastByteList (ts : List Token) : Option (List Byte) :=
  match byteList ts with
  | some (bs, []) => some bs
  | _ => none

/-- The names of a program: of its buffers, and of its decoders and encoders. -/
abbrev Names := List (Token × Nat)

/-- What a name stands for. -/
def Names.find (names : Names) (t : Token) : Option Nat := (List.find? (fun p => p.1 == t) names).map (·.2)

/-- `<handle>`: a name, or `none` (R85). -/
def handleToken (names : Names) (t : Token) : Option (Option BufHandle) :=
  if t = "none".toList then some none else (names.find t).map some

/-- A line's words, its `@<name>` taken off, as an operation (R85, R86). -/
def asmOp (names : Names) : List Token → Option AsmOp
  | [] => none
  | m :: ts =>
    if m = "crc_update".toList then
      match ts with
      | acc :: r :: bs =>
        match numberBits 16 acc, flagToken r, lastByteList bs with
        | some a, some f, some l => some (.crcUpdate a f l)
        | _, _, _ => none
      | _ => none
    else if m = "dec_feed".toList then (lastByteList ts).map .decFeed
    else if m = "dec_reset".toList then if ts = [] then some .decReset else none
    else if m = "dec_is_idle".toList then if ts = [] then some .decIsIdle else none
    else if m = "dec_set_buffer".toList then
      match ts with
      | [v, h, cap] =>
        match flagToken v, handleToken names h, numberBits 32 cap with
        | some f, some hd, some c => some (.decSetBuffer f hd c)
        | _, _, _ => none
      | _ => none
    else if m = "enc_encode".toList then
      match ts with
      | cmd :: bs =>
        match numberBits 16 cmd, lastByteList bs with
        | some c, some l => some (.encEncode c l)
        | _, _ => none
      | _ => none
    else if m = "crc_seed".toList then if ts = [] then some .crcSeed else none
    else if m = "crc_fold".toList then
      match ts with
      | [acc, b] =>
        match numberBits 16 acc, byteToken b with
        | some a, some v => some (.crcFold a v)
        | _, _ => none
      | _ => none
    else if m = "dec_clear_buffer".toList then if ts = [] then some .decClearBuffer else none
    else none

/-- A line's words as an operation of the decoder or encoder that `@<name>` names; "A program with one of each needs
none" (R85), so without one it is number 0. -/
def lineInstr (names : Names) : List Token → Option Instr
  | ('@' :: name) :: ts =>
    match names.find name, asmOp names ts with
    | some k, some op => expandAsm k op
    | _, _ => none
  | ts => (asmOp names ts).bind (expandAsm 0)

/-- A line of text as the request it stands for (R85, R86). -/
def assembleLine (names : Names) (line : String) : Option Request :=
  (lineInstr names (tokens [] line.toList)).map requestOf

end Sys2Proof.Machine
end

