-- ==== Sys2Proof/Safety.lean ====
section
/-! DEFINITION. What holds of every state a run can reach: the invariants of R30 and what they rest on. -/

namespace Sys2Proof.Machine

/-- The accumulators hold their `full_reset` values (R30 (a)). -/
def Decoder.cleared (d : Decoder) : Prop :=
  d.cmd = 0#16 ∧ d.len = 0#32 ∧ d.idx = 0#32 ∧ d.crc = Config.crcSeed ∧ d.rxcrc = 0#16

/-- `SOM` holds the accepted marker pair (R120, R121; the `SOM` column of R193). -/
def Decoder.markersSeen (d : Decoder) : Prop := d.som = Config.marker1 ++ Config.marker2

/-- What the registers hold in each parse state: R30 (a), (b) and (d), and what R120 to R130 leave in `LEN`, `IDX`,
`RXCRC` and `SOM`. -/
def Decoder.inv (d : Decoder) : Prop :=
  match d.st with
  | .awaitMarker1 => d.cleared
  | .awaitMarker2 => d.cleared ∧ d.som = Config.marker1 ++ 0x00#8
  | .commandHigh => d.cleared ∧ d.markersSeen
  | .commandLow => d.cmd.toNat < 256 ∧ d.len = 0#32 ∧ d.idx = 0#32 ∧ d.rxcrc = 0#16 ∧ d.markersSeen
  | .lengthByte0 => d.len = 0#32 ∧ d.idx = 0#32 ∧ d.rxcrc = 0#16 ∧ d.markersSeen
  | .lengthByte1 => d.len.toNat < 256 ∧ d.idx = 0#32 ∧ d.rxcrc = 0#16 ∧ d.markersSeen
  | .lengthByte2 => d.len.toNat < 65536 ∧ d.idx = 0#32 ∧ d.rxcrc = 0#16 ∧ d.markersSeen
  | .lengthByte3 => d.len.toNat < 16777216 ∧ d.idx = 0#32 ∧ d.rxcrc = 0#16 ∧ d.markersSeen
  | .payload => 0#32 < d.len ∧ d.idx < d.len ∧ d.rxcrc = 0#16 ∧ d.markersSeen
  | .checksumHigh => d.idx = d.len ∧ d.rxcrc = 0#16 ∧ d.markersSeen
  | .checksumLow => d.idx = d.len ∧ d.rxcrc.toNat < 256 ∧ d.markersSeen
  | .unused _ => False

/-- R30 (c): in `Payload` the declared length is within the capacity, unless the buffer was changed mid-frame. -/
def Decoder.lengthWithinCapacity (d : Decoder) : Prop := d.st = .payload → d.len ≤ d.bufCap

/-- What every step keeps: the registers of every decoder are as `Decoder.inv` says, host memory is in its canonical
form, every encoder has a sink (R224), what an encoder has yet to issue is the end of a frame's transactions (R170, R234),
and no decoder or encoder has two operations in progress one within the other (R61). -/
structure State.inv (s : State) : Prop where
  decoders : ∀ d ∈ s.decs, d.inv
  cells    : Memory.wf s.mem.cells
  extents  : risingKeys s.mem.extents
  sinks    : ∀ e ∈ s.encs, e.sink < s.sinks.length
  pending  : ∀ e ∈ s.encs, ∃ (cmd : Half) (payload : List Byte), e.pending <:+ frameTransactions cmd payload
  chain    : s.chain.Nodup

/-! ### Terms the statements use -/

/-- One thing after another, stopping at a fault or a refusal. -/
def andThen (o : Host.Outcome State Fault Refusal) (f : State → Host.Outcome State Fault Refusal) :
    Host.Outcome State Fault Refusal :=
  match o with
  | .next s => f s
  | .fault r => .fault r
  | .refused r => .refused r

/-- So many steps, stopping at a fault or a refusal. -/
def runSteps : Nat → State → Host.Outcome State Fault Refusal
  | 0, s => .next s
  | n + 1, s => andThen (step s) (runSteps n)

/-- Two sequences taken by turns, `true` for the first: what a sink that two encoders share receives (R234). A turn whose
sequence is used up takes nothing. -/
def byTurns {α : Type} : List Bool → List α → List α → List α
  | [], _, _ => []
  | true :: ts, x :: xs, ys => x :: byTurns ts xs ys
  | true :: ts, [], ys => byTurns ts [] ys
  | false :: ts, xs, y :: ys => y :: byTurns ts xs ys
  | false :: ts, xs, [] => byTurns ts xs []

/-- One `DEC_FEED` per chunk, in order (R111). -/
def feedChunks (k : Nat) : List (List Byte) → State → Host.Outcome State Fault Refusal
  | [], s => .next s
  | chunk :: chunks, s => andThen (exec (.decFeed k chunk) s) (feedChunks k chunks)

/-- A wire frame with any checksum field (R80). -/
def wireFrame (cmd : Half) (payload : List Byte) (check : Half) : List Byte :=
  [Config.marker1, Config.marker2] ++ bytes16 cmd ++ bytes32 (count32 payload) ++ payload ++ bytes16 check

/-- A `Frame` record holds as many payload bytes as its length says (R82, R208). -/
def Event.whole : Event → Prop
  | .frame _ len payload => payload.length = len.toNat
  | .error _ _ _ _ _ => True

end Sys2Proof.Machine
end

