-- ==== Sys2Proof/Certificates/Slice0/Obligations.lean ====
section
/-! DEFINITION. The statements for the provers. `s.decs[k]? = some d` says that `k` names the decoder `d` (R203). -/

section

open Sys2Proof Sys2Proof.Machine

/-! ### Encoding -/

/-- R73: a word selects an operation exactly when the operation's row matches it, and no two rows match one word.
For `ENC_ENCODE` the operands are such as R74 admits: fewer than 2^32 payload bytes. -/
def Obligations.WordSelectsOperationByMaskAndMatch : Prop :=
  opcodeTable = [(0x0001#16, 0xFEFF#16), (0x0010#16, 0xFFFF#16), (0x0011#16, 0xFFFF#16), (0x0012#16, 0xFFFF#16),
    (0x0013#16, 0xFEFF#16), (0x0020#16, 0xFFFF#16)] ∧
  (∀ (w : Half) (r : OperandRecord),
    (∀ row ∈ opcodeTable, w &&& row.2 = row.1 → (row = (0x0020#16, 0xFFFF#16) → r.bytes.length < 4294967296) →
      ∃ i, decode w r = .ok i ∧ tableRow i = row) ∧
    (∀ i, decode w r = .ok i → tableRow i ∈ opcodeTable ∧ w &&& (tableRow i).2 = (tableRow i).1)) ∧
  (∀ (w : Half) (row row' : OpcodeRow), row ∈ opcodeTable → row' ∈ opcodeTable →
    w &&& row.2 = row.1 → w &&& row'.2 = row'.1 → row = row')

/-- Decoding an encoded well-formed operation gives it back with every operand, and a word has one meaning: the word of
whatever it decodes to is that word. -/
def Obligations.DecodeAndEncodeAgree : Prop :=
  (∀ i : Instr, i.wellFormed = true → decode (encodeWord i) (encodeOperands i) = .ok i) ∧
  (∀ (w : Half) (r : OperandRecord) (i : Instr), decode w r = .ok i →
    i.wellFormed = true ∧ encodeWord i = w ∧ decode w (encodeOperands i) = .ok i)

/-- R76: the words that spell no operation are not decoded, whatever the operands, and a step refuses them. -/
def Obligations.ReservedWordsAreRefused : Prop :=
  ∀ (w : Half) (r : OperandRecord),
    (w.toNat / 512 ≠ 0 ∨ w.toNat % 256 ∉ [0x01, 0x10, 0x11, 0x12, 0x13, 0x20] ∨
      (w.toNat / 256 % 2 = 1 ∧ w.toNat % 256 ∈ [0x10, 0x11, 0x12, 0x20])) →
    ∃ e, decode w r = .error e ∧
      ∀ (s : State) (depth : Nat) (rest : List HostAction),
        (s.queue = .op { word := w, operands := r, depth := depth } :: rest → step s = .refused (.noOperation e)) ∧
        (s.queue = .opInTurns { word := w, operands := r, depth := depth } :: rest →
          step s = .refused (.noOperation e))

/-- Words written out from the patterns of R73 decode to what they stand for. -/
def Obligations.SampleWordsDecode : Prop :=
  decode 0b0000000000000001#16 { OperandRecord.zero with acc := 0x1234#16, bytes := [0xAB#8] }
    = .ok (.crcUpdate false 0x1234#16 [0xAB#8]) ∧
  decode 0b0000000100000001#16 OperandRecord.zero = .ok (.crcUpdate true 0x0000#16 []) ∧
  decode 0b0000000000010000#16 { OperandRecord.zero with bytes := [0x55#8, 0xAA#8] }
    = .ok (.decFeed 0 [0x55#8, 0xAA#8]) ∧
  decode 0b0000000000010001#16 { OperandRecord.zero with target := 3 } = .ok (.decReset 3) ∧
  decode 0b0000000000010010#16 OperandRecord.zero = .ok (.decIsIdle 0) ∧
  decode 0b0000000000010011#16 OperandRecord.zero = .ok (.decSetBuffer 0 false 0 0#32) ∧
  decode 0b0000000100010011#16 { OperandRecord.zero with handle := 7, cap := 8#32 }
    = .ok (.decSetBuffer 0 true 7 8#32) ∧
  decode 0b0000000000100000#16 { OperandRecord.zero with cmd := 0x0001#16, bytes := [0xBE#8] }
    = .ok (.encEncode 0 0x0001#16 [0xBE#8])

/-- R79 and R83: the parse-state codes number the eleven states in order and name every 4-bit code; the error codes are
1 to 6 in order, so no kind has the code 0 or 7. -/
def Obligations.StateAndErrorCodes : Prop :=
  ([ParseState.awaitMarker1, .awaitMarker2, .commandHigh, .commandLow, .lengthByte0, .lengthByte1, .lengthByte2,
    .lengthByte3, .payload, .checksumHigh, .checksumLow].map ParseState.code
      = [0#4, 1#4, 2#4, 3#4, 4#4, 5#4, 6#4, 7#4, 8#4, 9#4, 10#4]) ∧
  (∀ c : BitVec 4, (ParseState.ofCode c).code = c) ∧
  (∀ p : ParseState, ParseState.ofCode p.code = p) ∧
  ([ErrorKind.badMarker1, .badMarker2, .lengthTooLarge, .payloadOverrun, .checksumMismatch, .noBuffer].map
      ErrorKind.code = [1#3, 2#3, 3#3, 4#3, 5#3, 6#3]) ∧
  (∀ e : ErrorKind, e.code ≠ 0#3 ∧ e.code ≠ 7#3)

/-- R86: each pseudo-operation expands to the operation the rule names, and R85's forms to their operations with the
words the rule gives beside them. -/
def Obligations.TextualFormsExpand : Prop :=
  (∀ k, expandAsm k .crcSeed = some (.crcUpdate true 0x0000#16 [])) ∧
  (∀ k acc b, expandAsm k (.crcFold acc b) = expandAsm k (.crcUpdate acc false [b])) ∧
  (∀ k, expandAsm k .decClearBuffer = expandAsm k (.decSetBuffer false none 0#32)) ∧
  (∀ k r acc bytes, (expandAsm k (.crcUpdate acc r bytes)).map encodeWord
    = some (0x0001#16 ||| (if r then 0x0100#16 else 0x0000#16))) ∧
  (∀ k bytes, (expandAsm k (.decFeed bytes)).map encodeWord = some 0x0010#16) ∧
  (∀ k, (expandAsm k .decReset).map encodeWord = some 0x0011#16) ∧
  (∀ k, (expandAsm k .decIsIdle).map encodeWord = some 0x0012#16) ∧
  (∀ k v h cap, (expandAsm k (.decSetBuffer v (some h) cap)).map encodeWord
    = some (0x0013#16 ||| (if v then 0x0100#16 else 0x0000#16))) ∧
  (∀ k cmd bytes, (expandAsm k (.encEncode cmd bytes)).map encodeWord = some 0x0020#16)

/-! ### A step -/

/-- A step runs the decoded operation: when the host's next act is to issue a word with an operand record that decode to
`i`, not while an operation of the same decoder or encoder is in progress, the step is `exec` of `i` on the state with
that act taken from the queue and the operation entered in `chain` (log 11). With `withFetchWord` the next step runs the
word placed. -/
def Obligations.StepRunsDecodedOperation : Prop :=
  (∀ (s : State) (r : Request) (rest : List HostAction) (i : Instr),
    s.queue = .op r :: rest → decode r.word r.operands = .ok i → (∀ g, target i = some g → g ∉ s.chain.take r.depth) →
    (∀ k e, target i = some (.encoder k) → s.encs[k]? = some e → e.pending = []) →
    step s = exec i { s with queue := rest, chain := s.chain.take r.depth ++ (target i).toList }) ∧
  (∀ (s : State) (w : Nat) (i : Instr), decodeTableWord 16 w = some i →
    (∀ k e, target i = some (.encoder k) → s.encs[k]? = some e → e.pending = []) →
    step (s.withFetchWord 16 w) = exec i { s with chain := (target i).toList })

/-- R205: between operations the block does nothing and all its state is kept. -/
def Obligations.IdleMachineKeepsItsState : Prop := ∀ s : State, s.queue = [] → step s = .next s

/-- R61, R233, I9: an operation issued to a decoder or encoder `g` within operations of which one is of `g`, as by a consumer
of its events, is refused, and so is one to an encoder on which an encode in turns is in progress (log 10); one issued
within operations of others only, or to the Checksum Engine, is not (the model runs it after the operations in progress;
log 11). -/
def Obligations.ReentrantOperationIsRefused : Prop :=
  ∀ (s : State) (w : Half) (r : OperandRecord) (depth : Nat) (rest : List HostAction) (i : Instr),
    (s.queue = .op { word := w, operands := r, depth := depth } :: rest ∨
      s.queue = .opInTurns { word := w, operands := r, depth := depth } :: rest) → decode w r = .ok i →
    (∀ g, target i = some g → g ∈ s.chain.take depth → step s = .refused .reentrant) ∧
    (∀ k e, target i = some (.encoder k) → s.encs[k]? = some e → e.pending ≠ [] → step s = .refused .reentrant) ∧
    (s.queue = .op { word := w, operands := r, depth := depth } :: rest →
      (∀ g, target i = some g → g ∉ s.chain.take depth) →
      (∀ k e, target i = some (.encoder k) → s.encs[k]? = some e → e.pending = []) →
      step s = exec i { s with queue := rest, chain := s.chain.take depth ++ (target i).toList })

/-- R233, I9: re-entry through another decoder or encoder. An operation for `g` between operations, a second operation
issued during it, whatever it is for, and a third issued during the second: if the third is for `g` again, it is refused
(log 11: the depths say what is issued within what). -/
def Obligations.NestedReentryIsRefused : Prop :=
  ∀ (s t u : State) (r₁ r₂ r₃ : Request) (rest : List HostAction) (i₁ i₃ : Instr) (g : Agent),
    s.queue = .op r₁ :: .op r₂ :: .op r₃ :: rest → r₁.depth = 0 → r₂.depth = 1 → r₃.depth = 2 →
    decode r₁.word r₁.operands = .ok i₁ → decode r₃.word r₃.operands = .ok i₃ →
    target i₁ = some g → target i₃ = some g → step s = .next t → step t = .next u →
    step u = .refused .reentrant

/-! ### Reset and construction -/

/-- The state right after reset: the values of R44; one decoder constructed without a buffer, one encoder and its sink are
the model's choice (log 3), as is the empty queue (log 1); no operation is in progress. -/
def Obligations.ResetHoldsPowerOnValues : Prop :=
  State.reset.decs =
    [{ st := .awaitMarker1, cmd := 0x0000#16, len := 0#32, idx := 0#32, crc := 0xFFFF#16, rxcrc := 0x0000#16,
       som := 0x0000#16, buffer := none, events := [] }] ∧
  State.reset.encs = [{ sink := 0, pending := [] }] ∧ State.reset.sinks = [{ log := [], answers := [] }] ∧
  State.reset.mem.cells = [] ∧ State.reset.queue = [] ∧ State.reset.chain = []

/-- R220, R222: a constructed decoder has the power-on values, with its buffer if it is constructed with one; nothing
that already exists changes. -/
def Obligations.ConstructionIsPowerOnReset : Prop :=
  ∀ (s : State) (buffer : Option Assignment) (rest : List HostAction), s.queue = .newDecoder buffer :: rest →
    step s = .next { s with
      queue := rest
      decs := s.decs ++
        [{ st := .awaitMarker1, cmd := 0x0000#16, len := 0#32, idx := 0#32, crc := 0xFFFF#16, rxcrc := 0x0000#16,
           som := 0x0000#16, buffer := buffer, events := [] }] }

/-- R37, R203, R224: a constructed encoder gets a sink of its own, which has received nothing, or an existing sink that
the host makes encoders share; a sink that does not exist cannot be shared. -/
def Obligations.EncoderIsConstructedWithItsSink : Prop :=
  ∀ (s : State) (k : Nat) (rest : List HostAction),
    (s.queue = .newEncoder none :: rest → step s = .next { s with
      queue := rest
      encs := s.encs ++ [{ sink := s.sinks.length, pending := [] }], sinks := s.sinks ++ [{ log := [], answers := [] }] }) ∧
    (s.queue = .newEncoder (some k) :: rest → k < s.sinks.length → step s = .next { s with
      queue := rest
      encs := s.encs ++ [{ sink := k, pending := [] }] }) ∧
    (s.queue = .newEncoder (some k) :: rest → s.sinks.length ≤ k → step s = .refused .noSuchSink)

/-- R203, log 3: an operation for a decoder or encoder that was never constructed is refused, and so is an encode on an
encoder whose sink does not exist (R224); neither happens where the operation names what exists. -/
def Obligations.UnknownAgentIsRefused : Prop :=
  ∀ (s : State) (k : Nat),
    (s.decs[k]? = none →
      (∀ bytes, exec (.decFeed k bytes) s = .refused .noSuchAgent) ∧
      exec (.decReset k) s = .refused .noSuchAgent ∧
      exec (.decIsIdle k) s = .refused .noSuchAgent ∧
      ∀ v h cap, exec (.decSetBuffer k v h cap) s = .refused .noSuchAgent) ∧
    (∀ cmd payload, payload.length < 4294967296 →
      (s.encs[k]? = none → exec (.encEncode k cmd payload) s = .refused .noSuchAgent) ∧
      (∀ e, s.encs[k]? = some e → s.sinks[e.sink]? = none →
        exec (.encEncode k cmd payload) s = .refused .noSuchSink))

/-! ### The Checksum Engine -/

/-- R103: the result is the seed if `R` is 1, else `ACC`, with the bytes folded in, first to last; no state of the block
is written. -/
def Obligations.CrcUpdateReturnsFoldedAccumulator : Prop :=
  ∀ (s : State) (r : Bool) (acc : Half) (bytes : List Byte),
    exec (.crcUpdate r acc bytes) s
      = .next { s with result := .acc (bytes.foldl fold (if r then 0xFFFF#16 else acc)) } ∧
    encodeWord (.crcUpdate r acc bytes) = if r then 0b0000000100000001#16 else 0b0000000000000001#16

/-- R102: folding in two calls gives what one call gives. -/
def Obligations.CrcSplitInvariance : Prop :=
  ∀ (s t : State) (r : Bool) (acc v : Half) (xs ys : List Byte),
    exec (.crcUpdate r acc xs) s = .next t → t.result = .acc v →
    exec (.crcUpdate false v ys) t = exec (.crcUpdate r acc (xs ++ ys)) s

/-- R101 (a): the fold is polynomial division by 0x1021, most significant bit first. -/
def Obligations.FoldIsPolynomialDivision : Prop := ∀ (c : Half) (b : Byte), fold c b = foldPoly c b

/-- R101 (b), (c), (d): injective in the byte, bijective in the accumulator, linear. -/
def Obligations.FoldIsInjectiveAndLinear : Prop :=
  (∀ c : Half, Function.Injective (fold c)) ∧
  (∀ b : Byte, Function.Bijective (fun c : Half => fold c b)) ∧
  (∀ (c1 c2 : Half) (b1 b2 : Byte), fold (c1 ^^^ c2) (b1 ^^^ b2) = fold c1 b1 ^^^ fold c2 b2)

/-! ### The Frame Decoder, byte by byte -/

/-- R113: with no buffer every byte raises `NO_BUFFER` with the registers as they are; nothing else changes. -/
def Obligations.NoBufferRaisesErrorPerByte : Prop :=
  ∀ (s : State) (k : Nat) (d : Decoder) (bytes : List Byte), s.decs[k]? = some d → d.buffer = none →
    exec (.decFeed k bytes) s = .next { s with
      decs := s.decs.set k
        { d with events := d.events ++ List.replicate bytes.length (.error .noBuffer d.cmd d.len d.som none) }
      result := .noResult }

/-- R120: `AwaitMarker1`. -/
def Obligations.AwaitMarker1Byte : Prop :=
  ∀ (s : State) (k : Nat) (d : Decoder) (a : Assignment) (b : Byte), s.decs[k]? = some d → d.buffer = some a →
    d.st = .awaitMarker1 →
    (b = 0x55#8 → exec (.decFeed k [b]) s = .next { s with
      decs := s.decs.set k { d with som := 0x5500#16, st := .awaitMarker2 }, result := .noResult }) ∧
    (b ≠ 0x55#8 → exec (.decFeed k [b]) s = .next { s with
      decs := s.decs.set k { d with
        som := BitVec.ofNat 16 (b.toNat * 256)
        events := d.events ++
          [.error .badMarker1 d.cmd d.len (BitVec.ofNat 16 (b.toNat * 256)) (some a.handle)] }
      result := .noResult })

/-- R121: `AwaitMarker2`. Accepted or rejected, the accumulators are reset; a rejected byte is not tested again. -/
def Obligations.AwaitMarker2Byte : Prop :=
  ∀ (s : State) (k : Nat) (d : Decoder) (a : Assignment) (b : Byte), s.decs[k]? = some d → d.buffer = some a →
    d.st = .awaitMarker2 →
    (b = 0xAA#8 → exec (.decFeed k [b]) s = .next { s with
      decs := s.decs.set k { d with
        st := .commandHigh, cmd := 0x0000#16, len := 0#32, idx := 0#32, crc := 0xFFFF#16, rxcrc := 0x0000#16
        som := BitVec.ofNat 16 (d.som.toNat / 256 * 256 + 0xAA) }
      result := .noResult }) ∧
    (b ≠ 0xAA#8 → exec (.decFeed k [b]) s = .next { s with
      decs := s.decs.set k { d with
        st := .awaitMarker1, cmd := 0x0000#16, len := 0#32, idx := 0#32, crc := 0xFFFF#16, rxcrc := 0x0000#16
        som := BitVec.ofNat 16 (d.som.toNat / 256 * 256 + b.toNat)
        events := d.events ++
          [.error .badMarker2 d.cmd d.len (BitVec.ofNat 16 (d.som.toNat / 256 * 256 + b.toNat)) (some a.handle)] }
      result := .noResult })

/-- R122 to R126: the command bytes and the first three length bytes are shifted in big-endian and folded. -/
def Obligations.HeaderBytes : Prop :=
  ∀ (s : State) (k : Nat) (d : Decoder) (a : Assignment) (b : Byte), s.decs[k]? = some d → d.buffer = some a →
    (d.st = .commandHigh → exec (.decFeed k [b]) s = .next { s with
      decs := s.decs.set k { d with
        cmd := BitVec.ofNat 16 (d.cmd.toNat * 256 + b.toNat), crc := fold d.crc b, st := .commandLow }
      result := .noResult }) ∧
    (d.st = .commandLow → exec (.decFeed k [b]) s = .next { s with
      decs := s.decs.set k { d with
        cmd := BitVec.ofNat 16 (d.cmd.toNat * 256 + b.toNat), crc := fold d.crc b, st := .lengthByte0 }
      result := .noResult }) ∧
    (d.st = .lengthByte0 → exec (.decFeed k [b]) s = .next { s with
      decs := s.decs.set k { d with
        len := BitVec.ofNat 32 (d.len.toNat * 256 + b.toNat), crc := fold d.crc b, st := .lengthByte1 }
      result := .noResult }) ∧
    (d.st = .lengthByte1 → exec (.decFeed k [b]) s = .next { s with
      decs := s.decs.set k { d with
        len := BitVec.ofNat 32 (d.len.toNat * 256 + b.toNat), crc := fold d.crc b, st := .lengthByte2 }
      result := .noResult }) ∧
    (d.st = .lengthByte2 → exec (.decFeed k [b]) s = .next { s with
      decs := s.decs.set k { d with
        len := BitVec.ofNat 32 (d.len.toNat * 256 + b.toNat), crc := fold d.crc b, st := .lengthByte3 }
      result := .noResult })

/-- R127: the last length byte and the length checks, on the new length `l`. -/
def Obligations.LastLengthByte : Prop :=
  ∀ (s : State) (k : Nat) (d : Decoder) (a : Assignment) (b : Byte) (l : Word), s.decs[k]? = some d →
    d.buffer = some a → d.st = .lengthByte3 → l = BitVec.ofNat 32 (d.len.toNat * 256 + b.toNat) →
    (a.cap < l → exec (.decFeed k [b]) s = .next { s with
      decs := s.decs.set k { d with
        st := .awaitMarker1, cmd := 0x0000#16, len := 0#32, idx := 0#32, crc := 0xFFFF#16, rxcrc := 0x0000#16
        events := d.events ++ [.error .lengthTooLarge d.cmd l d.som (some a.handle)] }
      result := .noResult }) ∧
    (l = 0#32 → exec (.decFeed k [b]) s = .next { s with
      decs := s.decs.set k { d with len := l, crc := fold d.crc b, st := .checksumHigh }, result := .noResult }) ∧
    (0#32 < l → l ≤ a.cap → exec (.decFeed k [b]) s = .next { s with
      decs := s.decs.set k { d with len := l, crc := fold d.crc b, st := .payload }, result := .noResult })

/-- R128: `Payload`. The checks stand before the write; a payload byte goes to offset `IDX` of the assigned buffer and
nowhere else; an overrun writes nothing. -/
def Obligations.PayloadByte : Prop :=
  ∀ (s : State) (k : Nat) (d : Decoder) (a : Assignment) (b : Byte), s.decs[k]? = some d → d.buffer = some a →
    d.st = .payload →
    (d.len ≤ d.idx ∨ a.cap ≤ d.idx → exec (.decFeed k [b]) s = .next { s with
      decs := s.decs.set k { d with
        st := .awaitMarker1, cmd := 0x0000#16, len := 0#32, idx := 0#32, crc := 0xFFFF#16, rxcrc := 0x0000#16
        events := d.events ++ [.error .payloadOverrun d.cmd d.len d.som (some a.handle)] }
      result := .noResult }) ∧
    (d.idx < d.len → d.idx < a.cap → s.mem.writeFault a.handle d.idx.toNat = none →
      ∃ m : HostMem,
        exec (.decFeed k [b]) s = .next { s with
          decs := s.decs.set k { d with
            crc := fold d.crc b
            idx := BitVec.ofNat 32 (d.idx.toNat + 1)
            st := if d.idx.toNat + 1 = d.len.toNat then .checksumHigh else .payload }
          mem := m
          result := .noResult } ∧
        m.extents = s.mem.extents ∧ m.known a.handle d.idx.toNat = some b ∧
        ∀ (g : BufHandle) (j : Nat), j < 4294967296 → ¬ (g = a.handle ∧ j = d.idx.toNat) →
          m.known g j = s.mem.known g j)

/-- R231, I8, I17: a payload byte whose write goes to memory whose lifetime has ended, or beyond the memory the handle
names, has no meaning: the operation faults. -/
def Obligations.WriteOutsideLiveMemoryFaults : Prop :=
  ∀ (s : State) (k : Nat) (d : Decoder) (a : Assignment) (b : Byte) (n : Nat), s.decs[k]? = some d →
    d.buffer = some a → d.st = .payload → d.idx < d.len → d.idx < a.cap →
    (lookup a.handle s.mem.extents = some none → exec (.decFeed k [b]) s = .fault .writeToReleasedBuffer) ∧
    (lookup a.handle s.mem.extents = some (some n) → n ≤ d.idx.toNat →
      exec (.decFeed k [b]) s = .fault .writeBeyondNamedMemory)

/-- R129: `ChecksumHigh`. The byte is not folded. -/
def Obligations.ChecksumHighByte : Prop :=
  ∀ (s : State) (k : Nat) (d : Decoder) (a : Assignment) (b : Byte), s.decs[k]? = some d → d.buffer = some a →
    d.st = .checksumHigh →
    exec (.decFeed k [b]) s = .next { s with
      decs := s.decs.set k { d with rxcrc := BitVec.ofNat 16 (d.rxcrc.toNat * 256 + b.toNat), st := .checksumLow }
      result := .noResult }

/-- R130: `ChecksumLow`, the verdict. The frame's payload is read from the buffer now: as many bytes as `LEN` says, each
of them what something has written at its offset (a byte nothing has written may be any value). -/
def Obligations.ChecksumLowByte : Prop :=
  ∀ (s : State) (k : Nat) (d : Decoder) (a : Assignment) (b : Byte), s.decs[k]? = some d → d.buffer = some a →
    d.st = .checksumLow →
    (BitVec.ofNat 16 (d.rxcrc.toNat * 256 + b.toNat) = d.crc →
      ∃ (t : State) (payload : List Byte),
        exec (.decFeed k [b]) s = .next t ∧
        t.decs = s.decs.set k { d with
          st := .awaitMarker1, cmd := 0x0000#16, len := 0#32, idx := 0#32, crc := 0xFFFF#16, rxcrc := 0x0000#16
          events := d.events ++ [.frame d.cmd d.len payload] } ∧
        payload.length = d.len.toNat ∧
        (∀ (i : Nat) (v : Byte), i < d.len.toNat → s.mem.known a.handle i = some v → payload[i]? = some v) ∧
        t.encs = s.encs ∧ t.sinks = s.sinks ∧ t.mem.cells = s.mem.cells ∧ t.mem.extents = s.mem.extents ∧
        t.result = .noResult ∧ t.queue = s.queue ∧ t.chain = s.chain) ∧
    (BitVec.ofNat 16 (d.rxcrc.toNat * 256 + b.toNat) ≠ d.crc →
      exec (.decFeed k [b]) s = .next { s with
        decs := s.decs.set k { d with
          st := .awaitMarker1, cmd := 0x0000#16, len := 0#32, idx := 0#32, crc := 0xFFFF#16, rxcrc := 0x0000#16
          events := d.events ++ [.error .checksumMismatch d.cmd d.len d.som (some a.handle)] }
        result := .noResult })

/-- R133: a step in an unused state code is a full reset with no event. -/
def Obligations.UnusedStateByte : Prop :=
  ∀ (s : State) (k : Nat) (d : Decoder) (a : Assignment) (b : Byte) (u : Fin 5), s.decs[k]? = some d →
    d.buffer = some a → d.st = .unused u →
    exec (.decFeed k [b]) s = .next { s with
      decs := s.decs.set k { d with
        st := .awaitMarker1, cmd := 0x0000#16, len := 0#32, idx := 0#32, crc := 0xFFFF#16, rxcrc := 0x0000#16 }
      result := .noResult }

/-! ### The control operations -/

/-- R140: `DEC_RESET` is `full_reset` (R31): `SOM`, the configuration registers, the buffer and the event output stay; a
second one changes nothing. -/
def Obligations.DecResetAbandonsPartialFrame : Prop :=
  ∀ (s : State) (k : Nat) (d : Decoder), s.decs[k]? = some d →
    ∃ t, exec (.decReset k) s = .next t ∧
      t = { s with
        decs := s.decs.set k { d with
          st := .awaitMarker1, cmd := 0x0000#16, len := 0#32, idx := 0#32, crc := 0xFFFF#16, rxcrc := 0x0000#16 }
        result := .noResult } ∧
      exec (.decReset k) t = .next t ∧ encodeWord (.decReset k) = 0b0000000000010001#16

/-- R141: `DEC_IS_IDLE` returns whether `ST` is `AwaitMarker1`; no state of the block is written. -/
def Obligations.DecIsIdleReportsAwaitMarker1 : Prop :=
  ∀ (s : State) (k : Nat) (d : Decoder), s.decs[k]? = some d →
    (d.st = .awaitMarker1 → exec (.decIsIdle k) s = .next { s with result := .idle true }) ∧
    (d.st ≠ .awaitMarker1 → exec (.decIsIdle k) s = .next { s with result := .idle false }) ∧
    encodeWord (.decIsIdle k) = 0b0000000000010010#16

/-- R142: `DEC_SET_BUFFER` writes `BUF_VALID`, `BUF_HANDLE` and `BUF_CAP` and nothing else. -/
def Obligations.DecSetBufferWritesConfiguration : Prop :=
  ∀ (s : State) (k : Nat) (d : Decoder) (v : Bool) (h : BufHandle) (cap : Word), s.decs[k]? = some d →
    ∃ d', exec (.decSetBuffer k v h cap) s = .next { s with decs := s.decs.set k d', result := .noResult } ∧
      d'.bufValid = v ∧ d'.bufHandle = (if v then some h else none) ∧ d'.bufCap = (if v then cap else 0#32) ∧
      d'.st = d.st ∧ d'.cmd = d.cmd ∧ d'.len = d.len ∧ d'.idx = d.idx ∧ d'.crc = d.crc ∧ d'.rxcrc = d.rxcrc ∧
      d'.som = d.som ∧ d'.events = d.events ∧
      encodeWord (.decSetBuffer k v h cap) = if v then 0b0000000100010011#16 else 0b0000000000010011#16

/-! ### Feeding many bytes -/

/-- R111: feeding a sequence in two chunks, or in any number of chunks, is feeding it in one, from every state a run can
reach. -/
def Obligations.ChunkInvariance : Prop :=
  (∀ (s : State) (k : Nat) (xs ys : List Byte), s.inv →
    exec (.decFeed k (xs ++ ys)) s = andThen (exec (.decFeed k xs) s) (exec (.decFeed k ys))) ∧
  (∀ (s : State) (k : Nat) (chunks : List (List Byte)), s.inv → chunks ≠ [] →
    feedChunks k chunks s = exec (.decFeed k chunks.flatten) s)

/-- R132: the block copy leaves the same registers, buffer and events as `LEN` applications of R128 to the same bytes. -/
def Obligations.BlockCopyEqualsPayloadSteps : Prop :=
  ∀ (c : DecCtx) (a : Assignment) (block : List Byte), c.dec.buffer = some a → c.dec.st = .payload →
    c.dec.idx = 0#32 → c.dec.len ≤ a.cap → 0 < block.length → block.length = c.dec.len.toNat →
    blockCopy a block c = decSteps block c

/-- R7, R132: whether the implementation takes the block-copy path cannot be observed. -/
def Obligations.BlockPathIsNotObservable : Prop :=
  ∀ (bytes : List Byte) (d : Decoder) (m : HostMem), d.inv →
    feed true bytes { dec := d, mem := m } = feed false bytes { dec := d, mem := m }

/-- R207: every `DEC_FEED` consumes its whole operand and completes, provided the assigned buffer's memory holds its
capacity (the host's duty of R231). With its frame: only this decoder's registers and events, bytes of its buffer at
offsets below the capacity, and the result record can differ afterwards; its configuration registers do not. -/
def Obligations.FeedCompletes : Prop :=
  ∀ (s : State) (k : Nat) (d : Decoder) (bytes : List Byte), s.decs[k]? = some d →
    (∀ a, d.buffer = some a → s.mem.writable a.handle a.cap.toNat) →
    ∃ (t : State) (d' : Decoder), exec (.decFeed k bytes) s = .next t ∧ t.decs = s.decs.set k d' ∧
      d'.buffer = d.buffer ∧ (∃ events, d'.events = d.events ++ events) ∧
      t.encs = s.encs ∧ t.sinks = s.sinks ∧ t.queue = s.queue ∧ t.chain = s.chain ∧ t.result = .noResult ∧
      t.mem.extents = s.mem.extents ∧
      (∀ (g : BufHandle) (j : Nat), j < 4294967296 →
        (∀ a, d.buffer = some a → ¬ (g = a.handle ∧ j < a.cap.toNat)) → t.mem.known g j = s.mem.known g j)

/-- R206: every byte a `DEC_FEED` writes is in the assigned buffer at an offset below its capacity, whatever the input,
and a step that raises an error writes none. -/
def Obligations.NoWriteOutOfBounds : Prop :=
  (∀ (s t : State) (k : Nat) (d : Decoder) (bytes : List Byte), s.decs[k]? = some d →
    exec (.decFeed k bytes) s = .next t →
    ∀ (g : BufHandle) (j : Nat), j < 4294967296 → t.mem.known g j ≠ s.mem.known g j →
      ∃ a, d.buffer = some a ∧ g = a.handle ∧ j < a.cap.toNat) ∧
  (∀ (s t : State) (k : Nat) (d d' : Decoder) (b : Byte) (e : ErrorKind) (cmd : Half) (len : Word) (som : Half)
      (buf : Option BufHandle), s.decs[k]? = some d →
    exec (.decFeed k [b]) s = .next t → t.decs[k]? = some d' →
    d'.events = d.events ++ [.error e cmd len som buf] → t.mem.cells = s.mem.cells)

/-- R195: one byte causes at most one event. -/
def Obligations.OneByteCausesAtMostOneEvent : Prop :=
  ∀ (s t : State) (k : Nat) (d : Decoder) (b : Byte), s.decs[k]? = some d → exec (.decFeed k [b]) s = .next t →
    ∃ d', t.decs[k]? = some d' ∧ (d'.events = d.events ∨ ∃ e, d'.events = d.events ++ [e])

/-- R207: from every state a run can reach, a decoder with a buffer is back in `AwaitMarker1` after at most 10 + `BUF_CAP`
further bytes, whatever they are. -/
def Obligations.DecoderIsNeverStuck : Prop :=
  ∀ (s : State) (k : Nat) (d : Decoder) (a : Assignment) (bytes : List Byte), s.decs[k]? = some d → d.inv →
    d.buffer = some a → s.mem.writable a.handle a.cap.toNat → bytes.length = 10 + a.cap.toNat →
    ∃ (n : Nat) (t : State) (d' : Decoder), 1 ≤ n ∧ n ≤ 10 + a.cap.toNat ∧
      exec (.decFeed k (bytes.take n)) s = .next t ∧ t.decs[k]? = some d' ∧ d'.st = .awaitMarker1

/-! ### Whole frames -/

/-- R104, R130: fed a frame with any checksum field `x`, an idle decoder whose buffer can hold the payload appends exactly
one event: the frame, if `x` is the frame checksum of the received command, length and payload, else
`CHECKSUM_MISMATCH`. -/
def Obligations.FrameIsAcceptedExactlyOnItsChecksum : Prop :=
  ∀ (s : State) (k : Nat) (d : Decoder) (a : Assignment) (cmd : Half) (payload : List Byte) (x : Half),
    s.decs[k]? = some d → d.buffer = some a → d.st = .awaitMarker1 → payload.length ≤ a.cap.toNat →
    s.mem.writable a.handle payload.length →
    ∃ (t : State) (d' : Decoder), exec (.decFeed k (wireFrame cmd payload x)) s = .next t ∧
      t.decs = s.decs.set k d' ∧ d'.st = .awaitMarker1 ∧
      d'.events = d.events ++
        [if x = fcs cmd (count32 payload) payload then .frame cmd (count32 payload) payload
         else .error .checksumMismatch cmd (count32 payload) 0x55AA#16 (some a.handle)]

/-- R174: what an encoder sends, fed in any chunking to an idle decoder with room for the payload, is decoded to exactly
the command and payload, with no error, the payload at offsets 0 to L - 1. -/
def Obligations.EncodeDecodeRoundTrip : Prop :=
  ∀ (u v : State) (j : Nat) (e : Encoder) (sink sink' : Sink) (txs : List SinkTx) (cmd : Half) (payload : List Byte)
    (s : State) (k : Nat) (d : Decoder) (a : Assignment) (chunks : List (List Byte)),
    u.encs[j]? = some e → u.sinks[e.sink]? = some sink → exec (.encEncode j cmd payload) u = .next v →
    v.sinks[e.sink]? = some sink' → sink'.log = sink.log ++ txs → chunks.flatten = txs.flatMap SinkTx.bytes →
    s.decs[k]? = some d → d.buffer = some a → d.st = .awaitMarker1 → payload.length ≤ a.cap.toNat →
    s.mem.writable a.handle payload.length →
    ∃ (t : State) (d' : Decoder), feedChunks k chunks s = .next t ∧ t.decs[k]? = some d' ∧ d'.st = .awaitMarker1 ∧
      d'.events = d.events ++ [.frame cmd (BitVec.ofNat 32 payload.length) payload] ∧
      ∀ (i : Nat) (hi : i < payload.length), t.mem.known a.handle i = some payload[i]

/-- R106: changing exactly one byte of the Command field or of the Payload of a frame, with the transmitted checksum kept,
gives `CHECKSUM_MISMATCH` and no frame event. -/
def Obligations.SingleCorruptedByteIsDetected : Prop :=
  ∀ (s : State) (k : Nat) (d : Decoder) (a : Assignment) (cmd : Half) (payload : List Byte) (i : Nat) (b : Byte),
    s.decs[k]? = some d → d.buffer = some a → d.st = .awaitMarker1 → payload.length ≤ a.cap.toNat →
    s.mem.writable a.handle payload.length →
    (i = 2 ∨ i = 3 ∨ (8 ≤ i ∧ i < 8 + payload.length)) → (frameBytes cmd payload)[i]? ≠ some b →
    ∃ (t : State) (d' : Decoder) (c : Half) (l : Word) (som : Half) (buf : Option BufHandle),
      exec (.decFeed k ((frameBytes cmd payload).set i b)) s = .next t ∧ t.decs[k]? = some d' ∧
      d'.events = d.events ++ [.error .checksumMismatch c l som buf]

/-- R196: two valid frames back to back in one chunk give exactly two frame events, in order, each with its own command
and payload. -/
def Obligations.TwoFramesGiveTwoEventsInOrder : Prop :=
  ∀ (s : State) (k : Nat) (d : Decoder) (a : Assignment) (cmd cmd' : Half) (p p' : List Byte),
    s.decs[k]? = some d → d.buffer = some a → d.st = .awaitMarker1 → p.length ≤ a.cap.toNat →
    p'.length ≤ a.cap.toNat → s.mem.writable a.handle a.cap.toNat →
    ∃ (t : State) (d' : Decoder), exec (.decFeed k (frameBytes cmd p ++ frameBytes cmd' p')) s = .next t ∧
      t.decs[k]? = some d' ∧ d'.st = .awaitMarker1 ∧
      d'.events = d.events ++ [.frame cmd (count32 p) p, .frame cmd' (count32 p') p']

/-- R121, R236 (90_conflicts.md C1): after a lone first marker, a frame's own first marker is rejected as a second marker
and not tested again, so its second marker is rejected too. -/
def Obligations.LoneMarkerLosesTheFrameStart : Prop :=
  ∀ (s : State) (k : Nat) (d : Decoder) (a : Assignment), s.decs[k]? = some d → d.buffer = some a →
    d.st = .awaitMarker1 → d.cmd = 0x0000#16 → d.len = 0#32 →
    ∃ (t : State) (d' : Decoder), exec (.decFeed k [0x55#8, 0x55#8, 0xAA#8]) s = .next t ∧
      t.decs[k]? = some d' ∧ d'.st = .awaitMarker1 ∧
      d'.events = d.events ++
        [.error .badMarker2 0x0000#16 0#32 0x5555#16 (some a.handle),
         .error .badMarker1 0x0000#16 0#32 0xAA00#16 (some a.handle)]

/-! ### The Frame Encoder -/

/-- R170: the sink receives `ACQUIRE`, the eight header bytes, the payload unless it is empty, the two checksum bytes and
`RELEASE`, whatever `bytes_written` the sink returns (R56, R237); nothing else of the machine changes. The answers to
these four or five transactions, as far as any are listed, are returns (I13). That the sink's answers are a list, which
the transactions use up in order, and that a transaction without a listed answer returns, is the model's choice (log 9). -/
def Obligations.EncodeIssuesFrameTransactions : Prop :=
  ∀ (s : State) (k : Nat) (e : Encoder) (sink : Sink) (cmd : Half) (payload : List Byte),
    payload.length < 4294967296 → s.encs[k]? = some e → s.sinks[e.sink]? = some sink →
    (∀ x ∈ sink.answers.take (if payload.length = 0 then 4 else 5), x ≠ .never) →
    ∃ answers : List SinkAnswer,
      exec (.encEncode k cmd payload) s = .next { s with
        sinks := s.sinks.set e.sink
          { log := sink.log ++
              [.acquire,
               .write [0x55#8, 0xAA#8, BitVec.ofNat 8 (cmd.toNat / 256), BitVec.ofNat 8 cmd.toNat,
                 BitVec.ofNat 8 (payload.length / 16777216), BitVec.ofNat 8 (payload.length / 65536),
                 BitVec.ofNat 8 (payload.length / 256), BitVec.ofNat 8 payload.length]] ++
              (if payload.length = 0 then [] else [.write payload]) ++
              [.write [BitVec.ofNat 8 ((fcs cmd (BitVec.ofNat 32 payload.length) payload).toNat / 256),
                 BitVec.ofNat 8 (fcs cmd (BitVec.ofNat 32 payload.length) payload).toNat],
               .release]
            answers := answers }
        result := .noResult } ∧
      answers = sink.answers.drop (if payload.length = 0 then 4 else 5) ∧
      encodeWord (.encEncode k cmd payload) = 0b0000000000100000#16

/-- R171: the checksum the encoder sends is the frame checksum of R104. -/
def Obligations.EncoderSendsFrameChecksum : Prop :=
  ∀ (cmd : Half) (n : Word) (payload : List Byte), encoderCrc cmd n payload = fcs cmd n payload

/-- R172: a payload of 2^32 bytes or more is refused, by the decoder of operation words and by the operation itself. -/
def Obligations.TooLongPayloadIsRefused : Prop :=
  ∀ (s : State) (k : Nat) (cmd : Half) (payload : List Byte), 4294967296 ≤ payload.length →
    exec (.encEncode k cmd payload) s = .refused .payloadTooLong ∧
    ∀ r : OperandRecord, r.bytes = payload → decode 0x0020#16 r = .error .payloadTooLong

/-- I13: where one of the transactions of an encode never returns, the operation is stuck. Three things here are the
model's choice (log 9): that the answers are an input list, that being stuck is a fault, and that `ACQUIRE` and `RELEASE`
too may never return, where I13 leaves open whether a lock hook blocks and R173 says that the encoder never waits on the
hooks. -/
def Obligations.EncodeIsStuckWhenSinkNeverReturns : Prop :=
  ∀ (s : State) (k : Nat) (e : Encoder) (sink : Sink) (cmd : Half) (payload : List Byte) (n : Nat),
    payload.length < 4294967296 → s.encs[k]? = some e → s.sinks[e.sink]? = some sink →
    n < (if payload.length = 0 then 4 else 5) → sink.answers[n]? = some .never →
    exec (.encEncode k cmd payload) s = .fault .sinkNeverReturns

/-- R170, R61, log 10: an encode in turns with nothing between them is the encode: the same state, or the same stop. An
operation other than `ENC_ENCODE` takes no turns. -/
def Obligations.EncodeInTurnsIsEncode : Prop :=
  (∀ (s : State) (r : Request) (rest : List HostAction) (k : Nat) (cmd : Half) (payload : List Byte),
    s.queue = .opInTurns r ::
      (List.replicate (if payload.length = 0 then 4 else 5) (.turn k) ++ rest) →
    decode r.word r.operands = .ok (.encEncode k cmd payload) →
    runSteps (1 + if payload.length = 0 then 4 else 5) s = step { s with queue := .op r :: rest }) ∧
  (∀ (s : State) (r : Request) (rest : List HostAction) (i : Instr), s.queue = .opInTurns r :: rest →
    decode r.word r.operands = .ok i → (∀ k cmd payload, i ≠ .encEncode k cmd payload) →
    step s = step { s with queue := .op r :: rest })

/-- R234: two encoders that share a sink, encoding at the same time with nothing that excludes them: the sink receives the
transactions of the two frames interleaved, in whatever order `ts` the encoders take their turns, `true` for the first
(log 10). Nothing that the sink is to answer to them never returns (log 9). -/
def Obligations.SharedSinkReceivesInterleavedFrames : Prop :=
  ∀ (s : State) (r₁ r₂ : Request) (ts : List Bool) (rest : List HostAction) (j k n : Nat) (cmd₁ cmd₂ : Half)
      (p₁ p₂ : List Byte) (sink : Sink),
    s.queue = .opInTurns r₁ :: .opInTurns r₂ :: (ts.map (fun first => .turn (if first then j else k)) ++ rest) →
    r₁.depth = 0 → r₂.depth = 0 → j ≠ k →
    decode r₁.word r₁.operands = .ok (.encEncode j cmd₁ p₁) → decode r₂.word r₂.operands = .ok (.encEncode k cmd₂ p₂) →
    s.encs[j]? = some { sink := n, pending := [] } → s.encs[k]? = some { sink := n, pending := [] } →
    s.sinks[n]? = some sink → (∀ x ∈ sink.answers, x ≠ .never) →
    ∃ (t : State) (sink' : Sink), runSteps (2 + ts.length) s = .next t ∧
      t.sinks = s.sinks.set n sink' ∧
      sink'.log = sink.log ++ byTurns ts (frameTransactions cmd₁ p₁) (frameTransactions cmd₂ p₂) ∧
      t.decs = s.decs ∧ t.mem = s.mem ∧ t.queue = rest ∧
      (ts.count true ≥ (frameTransactions cmd₁ p₁).length → ts.count false ≥ (frameTransactions cmd₂ p₂).length →
        t.encs = s.encs)

/-! ### The machine as a whole -/

/-- That the invariant holds right after reset. -/
def Obligations.ResetMeetsInvariant : Prop := State.reset.inv

/-- R30 (a), (b), (d), the canonical form of host memory, that every encoder has a sink, that what an encoder has yet to
issue is the end of a frame's transactions (R170, R234), and that no decoder or encoder has two operations in progress
one within the other (R61): every step keeps them. -/
def Obligations.StepKeepsInvariant : Prop := ∀ s t : State, s.inv → step s = .next t → t.inv

/-- R30 (c): every operation but `DEC_SET_BUFFER` keeps the declared length within the capacity while in `Payload`. -/
def Obligations.LengthStaysWithinCapacity : Prop :=
  ∀ (i : Instr) (s t : State), (∀ k v h cap, i ≠ .decSetBuffer k v h cap) →
    (∀ d ∈ s.decs, d.lengthWithinCapacity) → exec i s = .next t → ∀ d ∈ t.decs, d.lengthWithinCapacity

/-- R38, R196: a step never removes or reorders an event record, nor a sink transaction; it only appends. -/
def Obligations.StepOnlyAppendsToOutputs : Prop :=
  ∀ s t : State, step s = .next t →
    (∀ (k : Nat) (d : Decoder), s.decs[k]? = some d →
      ∃ (d' : Decoder) (new : List Event), t.decs[k]? = some d' ∧ d'.events = d.events ++ new) ∧
    (∀ (k : Nat) (x : Sink), s.sinks[k]? = some x →
      ∃ (x' : Sink) (new : List SinkTx), t.sinks[k]? = some x' ∧ x'.log = x.log ++ new)

/-- R192: no operation other than `DEC_FEED` raises an error, or emits any event. -/
def Obligations.OnlyFeedEmitsEvents : Prop :=
  ∀ (i : Instr) (s t : State), (∀ k bytes, i ≠ .decFeed k bytes) → exec i s = .next t →
    ∀ (k : Nat) (d d' : Decoder), s.decs[k]? = some d → t.decs[k]? = some d' → d'.events = d.events

/-- R208: no frame event carries a part of a payload: every step keeps it that each frame record holds as many payload
bytes as its length says. -/
def Obligations.NoPartialFrameEvent : Prop :=
  ∀ s t : State, (∀ d ∈ s.decs, ∀ e ∈ d.events, e.whole) → step s = .next t →
    ∀ d ∈ t.decs, ∀ e ∈ d.events, e.whole

/-- R20, R36, R203: an operation changes no decoder and no sink but those of the decoder or encoder it is for, no encoder,
not the host's queue, and host memory only if it is a `DEC_FEED`. -/
def Obligations.OtherAgentsAreUntouched : Prop :=
  ∀ (i : Instr) (s t : State), exec i s = .next t →
    t.encs = s.encs ∧ t.queue = s.queue ∧ t.chain = s.chain ∧ t.decs.length = s.decs.length ∧ t.sinks.length = s.sinks.length ∧
    (∀ k, target i ≠ some (.decoder k) → t.decs[k]? = s.decs[k]?) ∧
    (∀ n, (∀ k e, target i = some (.encoder k) → s.encs[k]? = some e → e.sink ≠ n) → t.sinks[n]? = s.sinks[n]?) ∧
    ((∀ k bytes, i ≠ .decFeed k bytes) → t.mem = s.mem)

/-! ### The host and its buffers -/

/-- R235: the host may write a byte of a buffer between operations; it changes that byte and nothing else. A write to
memory that has ended or does not exist faults (log 6). -/
def Obligations.HostWriteChangesOneByte : Prop :=
  ∀ (s : State) (h : BufHandle) (i : Word) (b : Byte) (rest : List HostAction),
    s.queue = .writeBuffer h i b :: rest →
    (∀ f, s.mem.writeFault h i.toNat = some f → step s = .fault f) ∧
    (s.mem.writeFault h i.toNat = none → ∃ m : HostMem, step s = .next { s with queue := rest, mem := m } ∧ m.extents = s.mem.extents ∧
      m.known h i.toNat = some b ∧
      ∀ (g : BufHandle) (j : Nat), j < 4294967296 → ¬ (g = h ∧ j = i.toNat) → m.known g j = s.mem.known g j)

/-- R235, R66: a byte the host writes below `LEN` while the last checksum byte is awaited is delivered in the frame event,
and the verdict, which rests on the bytes consumed, is not changed by it. -/
def Obligations.HostWriteReachesTheSnapshot : Prop :=
  ∀ (s : State) (k : Nat) (d : Decoder) (a : Assignment) (i : Word) (v b : Byte) (rest : List HostAction),
    s.decs[k]? = some d → d.buffer = some a → d.st = .checksumLow →
    BitVec.ofNat 16 (d.rxcrc.toNat * 256 + b.toNat) = d.crc → i < d.len → s.mem.writeFault a.handle i.toNat = none →
    s.queue = .writeBuffer a.handle i v :: .op (requestOf (.decFeed k [b])) :: rest →
    ∃ (s' t : State) (d' : Decoder) (payload : List Byte), step s = .next s' ∧ step s' = .next t ∧
      t.decs[k]? = some d' ∧ d'.events = d.events ++ [.frame d.cmd d.len payload] ∧ payload[i.toNat]? = some v

/-- R231, I8, log 6: once the host has ended a buffer's lifetime, every write to it has no meaning; lending a handle memory
of n bytes makes exactly the offsets below n writable. Other handles are not affected. -/
def Obligations.BufferLifetime : Prop :=
  ∀ (s : State) (h : BufHandle) (n : Nat) (rest : List HostAction),
    (s.queue = .endLifetime h :: rest →
      ∃ m : HostMem, step s = .next { s with queue := rest, mem := m } ∧
        (∀ i, m.writeFault h i = some .writeToReleasedBuffer) ∧
        ∀ g, g ≠ h → ∀ i, i < 4294967296 → m.writeFault g i = s.mem.writeFault g i ∧ m.known g i = s.mem.known g i) ∧
    (s.queue = .lend h n :: rest →
      ∃ m : HostMem, step s = .next { s with queue := rest, mem := m } ∧
        (∀ i, m.writeFault h i = none ↔ i < n) ∧
        ∀ g, g ≠ h → ∀ i, i < 4294967296 → m.writeFault g i = s.mem.writeFault g i ∧ m.known g i = s.mem.known g i)

end
end

