-- ==== Sys2Proof/Laws/State.lean ====
section
/-! SUPPORT. One lemma per field per named update of a decoder, so that no proof unfolds a record update. -/

namespace Sys2Proof.Machine

variable (d : Decoder) (k : ErrorKind) (v : Bool) (h : BufHandle) (cap : Word) (c : DecCtx)

/-! ### `full_reset` (R31) -/

@[simp] theorem fullReset_st : (fullReset d).st = .awaitMarker1 := rfl
@[simp] theorem fullReset_cmd : (fullReset d).cmd = 0#16 := rfl
@[simp] theorem fullReset_len : (fullReset d).len = 0#32 := rfl
@[simp] theorem fullReset_idx : (fullReset d).idx = 0#32 := rfl
@[simp] theorem fullReset_crc : (fullReset d).crc = Config.crcSeed := rfl
@[simp] theorem fullReset_rxcrc : (fullReset d).rxcrc = 0#16 := rfl
@[simp] theorem fullReset_som : (fullReset d).som = d.som := rfl
@[simp] theorem fullReset_buffer : (fullReset d).buffer = d.buffer := rfl
@[simp] theorem fullReset_events : (fullReset d).events = d.events := rfl

/-! ### `raise` (R190, R193) -/

@[simp] theorem raise_st : (raise k d).st = d.st := rfl
@[simp] theorem raise_cmd : (raise k d).cmd = d.cmd := rfl
@[simp] theorem raise_len : (raise k d).len = d.len := rfl
@[simp] theorem raise_idx : (raise k d).idx = d.idx := rfl
@[simp] theorem raise_crc : (raise k d).crc = d.crc := rfl
@[simp] theorem raise_rxcrc : (raise k d).rxcrc = d.rxcrc := rfl
@[simp] theorem raise_som : (raise k d).som = d.som := rfl
@[simp] theorem raise_buffer : (raise k d).buffer = d.buffer := rfl
@[simp] theorem raise_events :
    (raise k d).events = d.events ++ [.error k d.cmd d.len d.som d.bufHandle] := rfl

/-! ### `DEC_SET_BUFFER` (R142) -/

@[simp] theorem setBuffer_st : (setBuffer v h cap d).st = d.st := by cases v <;> rfl
@[simp] theorem setBuffer_cmd : (setBuffer v h cap d).cmd = d.cmd := by cases v <;> rfl
@[simp] theorem setBuffer_len : (setBuffer v h cap d).len = d.len := by cases v <;> rfl
@[simp] theorem setBuffer_idx : (setBuffer v h cap d).idx = d.idx := by cases v <;> rfl
@[simp] theorem setBuffer_crc : (setBuffer v h cap d).crc = d.crc := by cases v <;> rfl
@[simp] theorem setBuffer_rxcrc : (setBuffer v h cap d).rxcrc = d.rxcrc := by cases v <;> rfl
@[simp] theorem setBuffer_som : (setBuffer v h cap d).som = d.som := by cases v <;> rfl
@[simp] theorem setBuffer_events : (setBuffer v h cap d).events = d.events := by cases v <;> rfl
@[simp] theorem setBuffer_true_buffer :
    (setBuffer true h cap d).buffer = some { handle := h, cap := cap } := rfl
@[simp] theorem setBuffer_false_buffer : (setBuffer false h cap d).buffer = none := rfl

/-! ### `emit Frame` (R66, R130) -/

@[simp] theorem emitFrame_st : (emitFrame h c).dec.st = c.dec.st := rfl
@[simp] theorem emitFrame_buffer : (emitFrame h c).dec.buffer = c.dec.buffer := rfl
@[simp] theorem emitFrame_som : (emitFrame h c).dec.som = c.dec.som := rfl
@[simp] theorem emitFrame_events : (emitFrame h c).dec.events =
    c.dec.events ++ [.frame c.dec.cmd c.dec.len (c.mem.readBytes h c.dec.len.toNat)] := rfl
@[simp] theorem emitFrame_cells : (emitFrame h c).mem.cells = c.mem.cells := rfl
@[simp] theorem emitFrame_extents : (emitFrame h c).mem.extents = c.mem.extents := rfl
@[simp] theorem emitFrame_known (g : BufHandle) (i : Nat) : (emitFrame h c).mem.known g i = c.mem.known g i := rfl
@[simp] theorem emitFrame_writeFault (g : BufHandle) (i : Nat) :
    (emitFrame h c).mem.writeFault g i = c.mem.writeFault g i := rfl

/-! ### The views of the configuration registers (R32 to R34) -/

theorem bufCap_of_some {d : Decoder} {a : Assignment} (hb : d.buffer = some a) : d.bufCap = a.cap := by
  simp [Decoder.bufCap, hb]

theorem bufHandle_of_some {d : Decoder} {a : Assignment} (hb : d.buffer = some a) :
    d.bufHandle = some a.handle := by
  simp [Decoder.bufHandle, hb]

theorem bufCap_congr {d e : Decoder} (hb : d.buffer = e.buffer) : d.bufCap = e.bufCap := by
  simp [Decoder.bufCap, hb]

theorem bufHandle_congr {d e : Decoder} (hb : d.buffer = e.buffer) : d.bufHandle = e.bufHandle := by
  simp [Decoder.bufHandle, hb]

/-! ### Performing an accepted operation (R233) -/

section

variable (s : State) (r : Request) (i : Instr) (rest : List HostAction)

@[simp] theorem enter_decs : (s.enter r i rest).decs = s.decs := rfl
@[simp] theorem enter_encs : (s.enter r i rest).encs = s.encs := rfl
@[simp] theorem enter_sinks : (s.enter r i rest).sinks = s.sinks := rfl
@[simp] theorem enter_mem : (s.enter r i rest).mem = s.mem := rfl
@[simp] theorem enter_result : (s.enter r i rest).result = s.result := rfl
@[simp] theorem enter_queue : (s.enter r i rest).queue = rest := rfl
@[simp] theorem enter_chain : (s.enter r i rest).chain = s.enclosing r ++ (target i).toList := rfl

end

end Sys2Proof.Machine
end

