-- ==== Sys2Proof/Laws/Memory.lean ====
section
/-! SUPPORT. Read after write, and the canonical form of host memory: every operation keeps it. -/

namespace Sys2Proof.Machine

section Pairs

variable {α : Type}

@[simp] theorem lookup_store_same (k : Nat) (v : α) (m : List (Nat × α)) : lookup k (store k v m) = some v := by
  induction m with
  | nil => simp [store, lookup]
  | cons p rest ih =>
    obtain ⟨j, w⟩ := p
    unfold store
    split
    · simp [lookup]
    · split
      · simp [lookup]
      · have hne : j ≠ k := fun h => by omega
        simp [lookup, hne, ih]

theorem lookup_store_other {j k : Nat} (v : α) (m : List (Nat × α)) (hne : j ≠ k) :
    lookup j (store k v m) = lookup j m := by
  induction m with
  | nil => simp [store, lookup, hne.symm]
  | cons p rest ih =>
    obtain ⟨i, w⟩ := p
    unfold store
    split
    · simp [lookup, hne.symm]
    · split
      · rename_i _ hk
        subst hk
        simp [lookup, hne.symm]
      · simp [lookup, ih]

theorem store_keys_gt {a k : Nat} {v : α} {m : List (Nat × α)} (hk : a < k) (hm : ∀ p ∈ m, a < p.1) :
    ∀ p ∈ store k v m, a < p.1 := by
  induction m with
  | nil => simp [store, hk]
  | cons q rest ih =>
    obtain ⟨i, w⟩ := q
    have hi : a < i := hm (i, w) (by simp)
    have hrest : ∀ p ∈ rest, a < p.1 := fun p hp => hm p (by simp [hp])
    unfold store
    split
    · intro p hp
      rcases List.mem_cons.1 hp with rfl | hp
      · exact hk
      · exact hm p hp
    · split
      · intro p hp
        rcases List.mem_cons.1 hp with rfl | hp
        · exact hk
        · exact hrest p hp
      · intro p hp
        rcases List.mem_cons.1 hp with rfl | hp
        · exact hi
        · exact ih hrest p hp

/-- Listing a value keeps the keys strictly rising. -/
theorem store_rising (k : Nat) (v : α) {m : List (Nat × α)} (hm : risingKeys m) : risingKeys (store k v m) := by
  induction m with
  | nil => simp [store]
  | cons q rest ih =>
    obtain ⟨i, w⟩ := q
    have hrest := List.pairwise_cons.1 hm
    unfold store
    split
    · rename_i hlt
      refine List.pairwise_cons.2 ⟨fun p hp => ?_, hm⟩
      rcases List.mem_cons.1 hp with rfl | hp
      · exact hlt
      · exact Nat.lt_trans hlt (hrest.1 p hp)
    · split
      · rename_i _ heq
        subst heq
        exact List.pairwise_cons.2 hrest
      · refine List.pairwise_cons.2 ⟨store_keys_gt (by omega) hrest.1, ih hrest.2⟩

end Pairs

/-- An offset and a handle are recovered from a key. -/
theorem bufKey_eq_iff {h g : BufHandle} {i j : Nat} (hi : i < 4294967296) (hj : j < 4294967296) :
    bufKey h i = bufKey g j ↔ h = g ∧ i = j := by
  unfold bufKey
  constructor
  · intro hk
    have : @Eq Nat h g := by omega
    subst this
    exact ⟨rfl, by omega⟩
  · rintro ⟨rfl, rfl⟩
    rfl

/-- All that a one-byte write can do. -/
theorem bufWrite_ok {h : BufHandle} {i : Nat} {b : Byte} {m m' : HostMem} (hw : bufWrite h i b m = .ok m') :
    m.writeFault h i = none ∧ m' = { m with cells := store (bufKey h i) b m.cells } := by
  unfold bufWrite at hw
  split at hw
  · cases hw
  · rename_i hf
    exact ⟨hf, by cases hw; rfl⟩

theorem bufWrite_of_writable {h : BufHandle} {i : Nat} (b : Byte) {m : HostMem} (hf : m.writeFault h i = none) :
    bufWrite h i b m = .ok { m with cells := store (bufKey h i) b m.cells } := by
  simp [bufWrite, hf]

theorem known_after_write_same (h : BufHandle) (i : Nat) (b : Byte) (m : HostMem) :
    HostMem.known { m with cells := store (bufKey h i) b m.cells } h i = some b := by
  simp [HostMem.known]

theorem known_after_write_other {h g : BufHandle} {i j : Nat} (b : Byte) (m : HostMem) (hi : i < 4294967296)
    (hj : j < 4294967296) (hne : ¬ (g = h ∧ j = i)) :
    HostMem.known { m with cells := store (bufKey h i) b m.cells } g j = m.known g j := by
  unfold HostMem.known
  exact lookup_store_other _ _ (fun hk => hne ((bufKey_eq_iff hj hi).1 hk))

/-- A byte that something has written reads as written, whatever the free values are. -/
theorem readByte_of_known {m : HostMem} {h : BufHandle} {i : Nat} {b : Byte} (hk : m.known h i = some b) :
    m.readByte h i = b := by
  simp [HostMem.readByte, hk]

@[simp] theorem readBytes_length (m : HostMem) (h : BufHandle) (n : Nat) : (m.readBytes h n).length = n := by
  simp [HostMem.readBytes]

@[simp] theorem readBytes_zero (m : HostMem) (h : BufHandle) : m.readBytes h 0 = [] := by
  simp [HostMem.readBytes]

/-- Every memory operation keeps the canonical form: a write. -/
theorem bufWrite_wf {h : BufHandle} {i : Nat} {b : Byte} {m m' : HostMem} (hw : bufWrite h i b m = .ok m')
    (hm : Memory.wf m.cells) : Memory.wf m'.cells := by
  obtain ⟨-, rfl⟩ := bufWrite_ok hw
  exact store_rising _ _ hm

/-- Every memory operation keeps the canonical form: a block of writes. -/
theorem bufWriteBlock_wf {h : BufHandle} {bs : List Byte} {i : Nat} {m m' : HostMem}
    (hw : bufWriteBlock h i bs m = .ok m') (hm : Memory.wf m.cells) : Memory.wf m'.cells := by
  induction bs generalizing i m with
  | nil => cases hw; exact hm
  | cons b bs ih =>
    unfold bufWriteBlock at hw
    split at hw
    · cases hw
    · rename_i m1 h1
      exact ih hw (bufWrite_wf h1 hm)

/-- Every memory operation keeps the canonical form: forgetting a buffer's bytes. -/
theorem forget_wf (h : BufHandle) {m : HostMem} (hm : Memory.wf m.cells) : Memory.wf (m.forget h).cells :=
  hm.filter _

/-- Forgetting a buffer's bytes changes no byte of another buffer. -/
theorem known_forget_other {m : HostMem} {g h : BufHandle} {i : Nat} (hi : i < 4294967296) (hne : g ≠ h) :
    (m.forget h).known g i = m.known g i := by
  have hg : bufKey g i / 4294967296 = g := by unfold bufKey; omega
  simp only [HostMem.known, HostMem.forget]
  induction m.cells with
  | nil => rfl
  | cons p rest ih =>
    obtain ⟨j, w⟩ := p
    by_cases hj : j = bufKey g i
    · subst hj
      simp [hg, hne, lookup]
    · simp only [List.filter_cons, lookup, hj, if_false]
      split
      · simp [lookup, hj, ih]
      · exact ih

/-- The memory right after reset is in canonical form. -/
theorem reset_memory_wf : Memory.wf State.reset.mem.cells := by decide

/-- A block of writes changes neither the extents nor the snapshot counter. -/
theorem bufWriteBlock_extents {h : BufHandle} {bs : List Byte} {i : Nat} {m m' : HostMem}
    (hw : bufWriteBlock h i bs m = .ok m') : m'.extents = m.extents ∧ m'.draws = m.draws := by
  induction bs generalizing i m with
  | nil => cases hw; exact ⟨rfl, rfl⟩
  | cons b bs ih =>
    unfold bufWriteBlock at hw
    split at hw
    · cases hw
    · rename_i m1 h1
      obtain ⟨-, rfl⟩ := bufWrite_ok h1
      have hih := ih hw
      exact hih

/-- A block of writes changes no byte outside it. -/
theorem bufWriteBlock_known_other {h g : BufHandle} {bs : List Byte} {i j : Nat} {m m' : HostMem}
    (hw : bufWriteBlock h i bs m = .ok m') (hi : i + bs.length ≤ 4294967296) (hj : j < 4294967296)
    (hne : ¬ (g = h ∧ i ≤ j ∧ j < i + bs.length)) : m'.known g j = m.known g j := by
  induction bs generalizing i m with
  | nil => cases hw; rfl
  | cons b bs ih =>
    simp only [List.length_cons] at hi hne
    unfold bufWriteBlock at hw
    split at hw
    · cases hw
    · rename_i m1 h1
      obtain ⟨-, rfl⟩ := bufWrite_ok h1
      rw [ih hw (by omega) (fun hc => hne ⟨hc.1, by omega, by omega⟩)]
      exact known_after_write_other b m (by omega) hj (fun hc => hne ⟨hc.1, by omega, by omega⟩)

/-- A block of writes leaves its bytes at the offsets from its start on. -/
theorem bufWriteBlock_known {h : BufHandle} {bs : List Byte} {i : Nat} {m m' : HostMem}
    (hw : bufWriteBlock h i bs m = .ok m') (hi : i + bs.length ≤ 4294967296) {j : Nat} (hj : j < bs.length) :
    m'.known h (i + j) = some bs[j] := by
  induction bs generalizing i j m with
  | nil => simp at hj
  | cons b bs ih =>
    simp only [List.length_cons] at hi hj
    unfold bufWriteBlock at hw
    split at hw
    · cases hw
    · rename_i m1 h1
      obtain ⟨-, rfl⟩ := bufWrite_ok h1
      cases j with
      | zero =>
        rw [bufWriteBlock_known_other hw (by omega) (by omega) (fun hc => by omega)]
        exact known_after_write_same h i b m
      | succ j =>
        have := ih hw (by omega) (j := j) (by omega)
        rw [show i + (j + 1) = i + 1 + j by omega]
        simpa using this

/-- A block of writes succeeds where every offset can be written. -/
theorem bufWriteBlock_of_writable {h : BufHandle} {bs : List Byte} {i : Nat} {m : HostMem}
    (hf : ∀ j, i ≤ j → j < i + bs.length → m.writeFault h j = none) : ∃ m', bufWriteBlock h i bs m = .ok m' := by
  induction bs generalizing i m with
  | nil => exact ⟨m, rfl⟩
  | cons b bs ih =>
    simp only [List.length_cons] at hf
    have h0 := hf i (by omega) (by omega)
    simp only [bufWriteBlock, bufWrite_of_writable b h0]
    exact ih (fun j h1 h2 => by simpa [HostMem.writeFault] using hf j (by omega) (by omega))

end Sys2Proof.Machine
end

