-- ==== Sys2Proof/Laws/Decoder.lean ====
section
/-! SUPPORT. What one `DEC_STEP` and one block copy can do, said once. -/

namespace Sys2Proof.Machine

/-- All that a step in `Payload` can do (R128): the overrun, or one byte written at `IDX`, which is below `LEN` and
below the capacity. -/
theorem stepPayload_ok {a : Assignment} {b : Byte} {c c' : DecCtx} (h : stepPayload a b c = .ok c') :
    ((c.dec.len ≤ c.dec.idx ∨ a.cap ≤ c.dec.idx) ∧ c' = { c with dec := fullReset (raise .payloadOverrun c.dec) }) ∨
    (c.dec.idx < c.dec.len ∧ c.dec.idx < a.cap ∧ c.mem.writeFault a.handle c.dec.idx.toNat = none ∧
      c' =
        { dec := { c.dec with
            crc := fold c.dec.crc b, idx := c.dec.idx + 1#32,
            st := if c.dec.idx + 1#32 = c.dec.len then .checksumHigh else .payload },
          mem := { c.mem with cells := store (bufKey a.handle c.dec.idx.toNat) b c.mem.cells } }) := by
  unfold stepPayload at h
  split at h
  · rename_i hover
    cases h
    exact .inl ⟨hover, rfl⟩
  · rename_i hin
    simp only [not_or, BitVec.not_le] at hin
    split at h
    · cases h
    · rename_i m hw
      obtain ⟨hf, rfl⟩ := bufWrite_ok hw
      cases h
      exact .inr ⟨hin.1, hin.2, hf, rfl⟩

/-- What one step does to host memory: nothing to its bytes, or one byte written at `IDX` of the assigned buffer, below
`LEN` and below the capacity (R51, R206); never anything to the extents. -/
def MemEffect (b : Byte) (c c' : DecCtx) : Prop :=
  c'.mem.extents = c.mem.extents ∧
  (c'.mem.cells = c.mem.cells ∨
    ∃ a, c.dec.buffer = some a ∧ c.dec.st = .payload ∧ c.dec.idx < c.dec.len ∧ c.dec.idx < a.cap ∧
      c'.dec.events = c.dec.events ∧
      c'.mem.cells = store (bufKey a.handle c.dec.idx.toNat) b c.mem.cells)

/-- All that one `DEC_STEP` can do to the buffer assignment, the event output and host memory, in any state: the
assignment stays (R142 alone writes it), at most one record is appended (R195), memory as `MemEffect` says. -/
theorem decStep_effect {b : Byte} {c c' : DecCtx} (h : decStep b c = .ok c') :
    c'.dec.buffer = c.dec.buffer ∧
    (c'.dec.events = c.dec.events ∨ ∃ e, c'.dec.events = c.dec.events ++ [e]) ∧
    MemEffect b c c' := by
  unfold decStep at h
  split at h
  · cases h
    exact ⟨rfl, .inr ⟨_, rfl⟩, rfl, .inl rfl⟩
  · rename_i a ha
    split at h
    · cases h
      unfold stepAwaitMarker1
      split
      · exact ⟨rfl, .inl rfl, rfl, .inl rfl⟩
      · exact ⟨rfl, .inr ⟨_, rfl⟩, rfl, .inl rfl⟩
    · cases h
      unfold stepAwaitMarker2
      split
      · exact ⟨rfl, .inl rfl, rfl, .inl rfl⟩
      · exact ⟨rfl, .inr ⟨_, rfl⟩, rfl, .inl rfl⟩
    · cases h; exact ⟨rfl, .inl rfl, rfl, .inl rfl⟩
    · cases h; exact ⟨rfl, .inl rfl, rfl, .inl rfl⟩
    · cases h; exact ⟨rfl, .inl rfl, rfl, .inl rfl⟩
    · cases h; exact ⟨rfl, .inl rfl, rfl, .inl rfl⟩
    · cases h; exact ⟨rfl, .inl rfl, rfl, .inl rfl⟩
    · cases h
      unfold stepLengthByte3
      dsimp only
      split
      · exact ⟨rfl, .inr ⟨_, rfl⟩, rfl, .inl rfl⟩
      · split
        · exact ⟨rfl, .inl rfl, rfl, .inl rfl⟩
        · exact ⟨rfl, .inl rfl, rfl, .inl rfl⟩
    · rename_i hst
      rcases stepPayload_ok h with ⟨-, rfl⟩ | ⟨hl, hc, -, rfl⟩
      · exact ⟨rfl, .inr ⟨_, rfl⟩, rfl, .inl rfl⟩
      · exact ⟨rfl, .inl rfl, rfl, .inr ⟨a, ha, hst, hl, hc, rfl, rfl⟩⟩
    · cases h; exact ⟨rfl, .inl rfl, rfl, .inl rfl⟩
    · cases h
      unfold stepChecksumLow
      dsimp only
      split
      · exact ⟨rfl, .inr ⟨_, rfl⟩, rfl, .inl rfl⟩
      · exact ⟨rfl, .inr ⟨_, rfl⟩, rfl, .inl rfl⟩
    · cases h; exact ⟨rfl, .inl rfl, rfl, .inl rfl⟩

/-! ### Which definition a step is, by parse state (R112) -/

section Dispatch

variable {b : Byte} {d : Decoder} {m : HostMem} {a : Assignment}

theorem decStep_noBuffer (hb : d.buffer = none) : decStep b ⟨d, m⟩ = .ok ⟨noBufferStep d, m⟩ := by
  simp [decStep, hb]

theorem decStep_awaitMarker1 (hb : d.buffer = some a) (hs : d.st = .awaitMarker1) :
    decStep b ⟨d, m⟩ = .ok ⟨stepAwaitMarker1 b d, m⟩ := by simp [decStep, hb, hs]

theorem decStep_awaitMarker2 (hb : d.buffer = some a) (hs : d.st = .awaitMarker2) :
    decStep b ⟨d, m⟩ = .ok ⟨stepAwaitMarker2 b d, m⟩ := by simp [decStep, hb, hs]

theorem decStep_commandHigh (hb : d.buffer = some a) (hs : d.st = .commandHigh) :
    decStep b ⟨d, m⟩ = .ok ⟨stepCommandHigh b d, m⟩ := by simp [decStep, hb, hs]

theorem decStep_commandLow (hb : d.buffer = some a) (hs : d.st = .commandLow) :
    decStep b ⟨d, m⟩ = .ok ⟨stepCommandLow b d, m⟩ := by simp [decStep, hb, hs]

theorem decStep_lengthByte0 (hb : d.buffer = some a) (hs : d.st = .lengthByte0) :
    decStep b ⟨d, m⟩ = .ok ⟨stepLengthByte0 b d, m⟩ := by simp [decStep, hb, hs]

theorem decStep_lengthByte1 (hb : d.buffer = some a) (hs : d.st = .lengthByte1) :
    decStep b ⟨d, m⟩ = .ok ⟨stepLengthByte1 b d, m⟩ := by simp [decStep, hb, hs]

theorem decStep_lengthByte2 (hb : d.buffer = some a) (hs : d.st = .lengthByte2) :
    decStep b ⟨d, m⟩ = .ok ⟨stepLengthByte2 b d, m⟩ := by simp [decStep, hb, hs]

theorem decStep_lengthByte3 (hb : d.buffer = some a) (hs : d.st = .lengthByte3) :
    decStep b ⟨d, m⟩ = .ok ⟨stepLengthByte3 b d, m⟩ := by simp [decStep, hb, hs]

theorem decStep_payload (hb : d.buffer = some a) (hs : d.st = .payload) :
    decStep b ⟨d, m⟩ = stepPayload a b ⟨d, m⟩ := by simp [decStep, hb, hs]

theorem decStep_checksumHigh (hb : d.buffer = some a) (hs : d.st = .checksumHigh) :
    decStep b ⟨d, m⟩ = .ok ⟨stepChecksumHigh b d, m⟩ := by simp [decStep, hb, hs]

theorem decStep_checksumLow (hb : d.buffer = some a) (hs : d.st = .checksumLow) :
    decStep b ⟨d, m⟩ = .ok (stepChecksumLow a b ⟨d, m⟩) := by simp [decStep, hb, hs]

theorem decStep_unused {u : Fin 5} (hb : d.buffer = some a) (hs : d.st = .unused u) :
    decStep b ⟨d, m⟩ = .ok ⟨fullReset d, m⟩ := by simp [decStep, hb, hs]

end Dispatch

/-- A step completes where the assigned buffer's memory holds its capacity (R207, the host's duty R231). -/
theorem decStep_of_writable (b : Byte) {c : DecCtx}
    (hw : ∀ a, c.dec.buffer = some a → c.mem.writable a.handle a.cap.toNat) : ∃ c', decStep b c = .ok c' := by
  unfold decStep
  split
  · exact ⟨_, rfl⟩
  · rename_i a ha
    split
    case h_9 =>
      unfold stepPayload
      split
      · exact ⟨_, rfl⟩
      · rename_i hin
        simp only [not_or, BitVec.not_le] at hin
        have hf := hw a ha c.dec.idx.toNat (by simpa [BitVec.lt_def] using hin.2)
        rw [bufWrite_of_writable b hf]
        exact ⟨_, rfl⟩
    all_goals exact ⟨_, rfl⟩

/-- All that a block copy can do (R131). -/
theorem blockCopy_ok {a : Assignment} {block : List Byte} {c c' : DecCtx} (h : blockCopy a block c = .ok c') :
    ∃ m, bufWriteBlock a.handle 0 block c.mem = .ok m ∧
      c' = { dec := { c.dec with crc := update c.dec.crc (m.readBytes a.handle c.dec.len.toNat) false,
                                 idx := c.dec.len, st := .checksumHigh }
             mem := m } := by
  unfold blockCopy at h
  split at h
  · cases h
  · rename_i m hm
    cases h
    exact ⟨m, hm, rfl⟩

/-- When a block copy is due, it is into the assigned buffer, from `LengthByte3`, in `Payload`, and the operand still
holds `LEN` bytes (R131). -/
theorem blockReady_some {path : Bool} {was now : Decoder} {rest : List Byte} {a : Assignment}
    (h : blockReady path was now rest = some a) :
    path = true ∧ was.st = .lengthByte3 ∧ now.st = .payload ∧ now.len.toNat ≤ rest.length ∧ now.buffer = some a := by
  unfold blockReady at h
  split at h
  · rename_i hc
    simp only [Bool.and_eq_true, beq_iff_eq, decide_eq_true_eq] at hc
    exact ⟨hc.1.1.1, hc.1.1.2, hc.1.2, hc.2, h⟩
  · cases h

/-! ### The loop of `DEC_FEED`, one equation per case -/

@[simp] theorem feedLoop_nil (path : Bool) (n : Nat) (c : DecCtx) : feedLoop path n [] c = .ok c := by
  cases n <;> rfl

@[simp] theorem feedLoop_skip (path : Bool) (n : Nat) (b : Byte) (bs : List Byte) (c : DecCtx) :
    feedLoop path (n + 1) (b :: bs) c = feedLoop path n bs c := rfl

/-- With nothing to copy, the loop is one step and the rest. -/
theorem feedLoop_step {path : Bool} {b : Byte} {bs : List Byte} {c c1 : DecCtx} (h : decStep b c = .ok c1)
    (hr : blockReady path c.dec c1.dec bs = none) : feedLoop path 0 (b :: bs) c = feedLoop path 0 bs c1 := by
  simp [feedLoop, h, hr]

/-- One byte alone is one step: a block copy needs at least one byte more. -/
theorem feed_one {path : Bool} {b : Byte} {c c1 : DecCtx} (h : decStep b c = .ok c1)
    (hl : c1.dec.st = .payload → c1.dec.len ≠ 0#32) : feed path [b] c = .ok c1 := by
  have hr : blockReady path c.dec c1.dec [] = none := by
    cases hb : blockReady path c.dec c1.dec [] with
    | none => rfl
    | some a =>
      obtain ⟨-, -, hp, hlen, -⟩ := blockReady_some hb
      have : c1.dec.len = 0#32 := by
        apply BitVec.eq_of_toNat_eq
        simpa using hlen
      exact absurd this (hl hp)
  simp [feed, feedLoop_step h hr]

end Sys2Proof.Machine
end

