-- ==== Sys2Proof/Laws/Exec.lean ====
section
/-! SUPPORT. What the shared operations over the whole state and over sinks can do, and decoding and encoding. -/

namespace Sys2Proof.Machine

/-- All that an operation on one decoder's registers can do. -/
theorem onDecoder_next {k : Nat} {f : Decoder → Decoder} {s t : State} (h : onDecoder k f s = .next t) :
    ∃ d, s.decs[k]? = some d ∧ t = { s with decs := s.decs.set k (f d), result := .noResult } := by
  unfold onDecoder at h
  split at h
  · cases h
  · rename_i d hd
    exact ⟨d, hd, by cases h; rfl⟩

theorem onDecoder_of_some {k : Nat} (f : Decoder → Decoder) {s : State} {d : Decoder} (hd : s.decs[k]? = some d) :
    onDecoder k f s = .next { s with decs := s.decs.set k (f d), result := .noResult } := by
  simp [onDecoder, hd]

/-- All that `DEC_FEED` can do to the state when it completes. -/
theorem execDecFeed_next {k : Nat} {bytes : List Byte} {s t : State} (h : execDecFeed k bytes s = .next t) :
    ∃ d c, s.decs[k]? = some d ∧ feed Config.blockPath bytes { dec := d, mem := s.mem } = .ok c ∧
      t = { s with decs := s.decs.set k c.dec, mem := c.mem, result := .noResult } := by
  unfold execDecFeed at h
  split at h
  · cases h
  · rename_i d hd
    split at h
    · cases h
    · rename_i c hc
      exact ⟨d, c, hd, hc, by cases h; rfl⟩

theorem execDecFeed_of_feed {k : Nat} {bytes : List Byte} {s : State} {d : Decoder} {c : DecCtx}
    (hd : s.decs[k]? = some d) (hf : feed Config.blockPath bytes { dec := d, mem := s.mem } = .ok c) :
    execDecFeed k bytes s = .next { s with decs := s.decs.set k c.dec, mem := c.mem, result := .noResult } := by
  simp [execDecFeed, hd, hf]

/-- All that finding an encoder and its sink says (R172, R203, R224). -/
theorem encoderAndSink_ok {k : Nat} {payload : List Byte} {s : State} {p : Encoder × Sink}
    (h : encoderAndSink k payload s = .ok p) :
    payload.length < 4294967296 ∧ s.encs[k]? = some p.1 ∧ s.sinks[p.1.sink]? = some p.2 := by
  unfold encoderAndSink at h
  split at h
  · rename_i hn
    split at h
    · cases h
    · split at h
      · cases h
      · cases h
        exact ⟨hn, ‹_›, ‹_›⟩
  · cases h

theorem encoderAndSink_of_some {k : Nat} {payload : List Byte} {s : State} {e : Encoder} {sink : Sink}
    (hn : payload.length < 4294967296) (he : s.encs[k]? = some e) (hs : s.sinks[e.sink]? = some sink) :
    encoderAndSink k payload s = .ok (e, sink) := by
  simp [encoderAndSink, hn, he, hs]

/-- All that `ENC_ENCODE` can do to the state when it completes. -/
theorem execEncEncode_next {k : Nat} {cmd : Half} {payload : List Byte} {s t : State}
    (h : execEncEncode k cmd payload s = .next t) :
    payload.length < 4294967296 ∧ ∃ e sink sink', s.encs[k]? = some e ∧ s.sinks[e.sink]? = some sink ∧
      issueAll (frameTransactions cmd payload) sink = some sink' ∧
      t = { s with sinks := s.sinks.set e.sink sink', result := .noResult } := by
  unfold execEncEncode at h
  split at h
  · cases h
  · rename_i e sink hok
    obtain ⟨hn, he, hsink⟩ := encoderAndSink_ok hok
    split at h
    · cases h
    · exact ⟨hn, e, sink, _, he, hsink, ‹_›, by cases h; rfl⟩

/-- All that beginning an encode can do to the state (R234). -/
theorem beginEncode_next {k : Nat} {cmd : Half} {payload : List Byte} {s t : State}
    (h : beginEncode k cmd payload s = .next t) :
    payload.length < 4294967296 ∧ ∃ e sink, s.encs[k]? = some e ∧ s.sinks[e.sink]? = some sink ∧
      t = { s with encs := s.encs.set k { e with pending := frameTransactions cmd payload } } := by
  unfold beginEncode at h
  split at h
  · cases h
  · rename_i e sink hok
    obtain ⟨hn, he, hsink⟩ := encoderAndSink_ok hok
    exact ⟨hn, e, sink, he, hsink, by cases h; rfl⟩

/-- All that a turn of an encoder can do to the state (R234). -/
theorem encoderTurn_next {k : Nat} {s t : State} (h : encoderTurn k s = .next t) :
    ∃ e, s.encs[k]? = some e ∧
      ((e.pending = [] ∧ t = s) ∨
       ∃ tx rest sink sink', e.pending = tx :: rest ∧ s.sinks[e.sink]? = some sink ∧ issue tx sink = some sink' ∧
        t = { s with
          encs := s.encs.set k { e with pending := rest }
          sinks := s.sinks.set e.sink sink'
          result := if rest = [] then .noResult else s.result }) := by
  unfold encoderTurn at h
  split at h
  · cases h
  · rename_i e he
    refine ⟨e, he, ?_⟩
    split at h
    · cases h
      exact .inl ⟨‹_›, rfl⟩
    · split at h
      · cases h
      · split at h
        · cases h
        · exact .inr ⟨_, _, _, _, ‹_›, ‹_›, ‹_›, by cases h; rfl⟩

/-- All that handing over one transaction can do (R56): it is appended, and at most one answer is used up. -/
theorem issue_some {tx : SinkTx} {k k' : Sink} (h : issue tx k = some k') :
    k' = { log := k.log ++ [tx], answers := k.answers.tail } ∧ k.answers.head? ≠ some .never := by
  unfold issue at h
  split at h
  · rename_i ha
    cases h
    simp [ha]
  · rename_i n rest ha
    cases h
    simp [ha]
  · cases h

/-- Transactions are appended in order (R37). -/
theorem issueAll_log {txs : List SinkTx} {k k' : Sink} (h : issueAll txs k = some k') : k'.log = k.log ++ txs := by
  induction txs generalizing k with
  | nil => cases h; simp
  | cons tx txs ih =>
    unfold issueAll at h
    split at h
    · cases h
    · rename_i k1 h1
      obtain ⟨rfl, -⟩ := issue_some h1
      simp [ih h]

/-- Handing transactions over completes where none of the answers they meet is `never` (R56, I13). -/
theorem issueAll_of_returns {txs : List SinkTx} {k : Sink} (h : ∀ x ∈ k.answers.take txs.length, x ≠ .never) :
    issueAll txs k = some { log := k.log ++ txs, answers := k.answers.drop txs.length } := by
  induction txs generalizing k with
  | nil => simp [issueAll]
  | cons tx txs ih =>
    obtain ⟨log, answers⟩ := k
    cases answers with
    | nil => simp [issueAll, issue, ih]
    | cons x xs =>
      cases x with
      | never => simp at h
      | returned n =>
        simp only [issueAll, issue]
        rw [ih (by simpa using h)]
        simp

theorem frameTransactions_length (cmd : Half) (payload : List Byte) :
    (frameTransactions cmd payload).length = if payload.length = 0 then 4 else 5 := by
  cases payload <;> simp [frameTransactions]

/-- A word with its operand record is decoded to a well-formed operation or rejected (R172). -/
theorem decode_wellFormed {w : Half} {r : OperandRecord} {i : Instr} (h : decode w r = .ok i) :
    i.wellFormed = true ∧ decodeOpcode w r = .ok i := by
  unfold decode at h
  split at h
  · cases h
  · rename_i j hj
    split at h
    · rename_i hwf
      cases h
      exact ⟨hwf, hj⟩
    · cases h

/-- An encoder is busy exactly while it has transactions to issue (R234). -/
theorem busy_encoder {s : State} {k : Nat} : s.busy (.encoder k) = true ↔ ∃ e, s.encs[k]? = some e ∧ e.pending ≠ [] := by
  unfold State.busy
  cases h : s.encs[k]? <;> simp [h]

/-- An operation is re-entrant exactly when it is for one of the decoders and encoders it is issued within, or for a busy
encoder (R61, R233). -/
theorem reentrant_iff {s : State} {r : Request} {i : Instr} :
    reentrant s r i = true ↔ ∃ g, target i = some g ∧ (g ∈ s.enclosing r ∨ s.busy g = true) := by
  unfold reentrant
  split <;> simp_all

/-- All that accepting a request says: it spells the operation, and no operation of the operation's decoder or encoder is in
progress (R76, R233). -/
theorem acceptRequest_ok {s : State} {r : Request} {i : Instr} (h : acceptRequest s r = .ok i) :
    decode r.word r.operands = .ok i ∧ ∀ g, target i = some g → g ∉ s.enclosing r ∧ s.busy g = false := by
  unfold acceptRequest at h
  split at h
  · cases h
  · rename_i j hj
    split at h
    · cases h
    · rename_i hr
      cases h
      refine ⟨hj, fun g hg => ?_⟩
      rw [reentrant_iff] at hr
      push Not at hr
      simpa using hr g hg

/-- An accepted operation keeps it that no decoder or encoder has two operations in progress (R61). -/
theorem enter_chain_nodup {s : State} {r : Request} {i : Instr} (rest : List HostAction)
    (h : acceptRequest s r = .ok i) (hs : s.chain.Nodup) : (s.enter r i rest).chain.Nodup := by
  have hn := (acceptRequest_ok h).2
  have ht : (s.enclosing r).Nodup := hs.sublist (List.take_sublist _ _)
  rw [enter_chain]
  cases hi : target i with
  | none => simpa using ht
  | some g => simpa using List.Nodup.concat (hn g hi).1 ht

/-- All that a step can do when the host's next act is an operation and the step completes. -/
theorem step_op_next {s t : State} {r : Request} {rest : List HostAction} (hq : s.queue = .op r :: rest)
    (h : step s = .next t) : ∃ i, acceptRequest s r = .ok i ∧ exec i (s.enter r i rest) = .next t := by
  simp only [step, hq] at h
  split at h
  · cases h
  · exact ⟨_, ‹_›, h⟩

/-- No operation changes the host's queue, nor whose operations the next one can be issued within (R61). -/
theorem exec_queue_chain {i : Instr} {s t : State} (h : exec i s = .next t) : t.queue = s.queue ∧ t.chain = s.chain := by
  cases i with
  | crcUpdate r acc bytes => cases h; exact ⟨rfl, rfl⟩
  | decFeed k bytes => obtain ⟨_, _, _, _, rfl⟩ := execDecFeed_next h; exact ⟨rfl, rfl⟩
  | decReset k => obtain ⟨_, _, rfl⟩ := onDecoder_next h; exact ⟨rfl, rfl⟩
  | decIsIdle k =>
    simp only [exec, execDecIsIdle] at h
    split at h
    · cases h
    · cases h; exact ⟨rfl, rfl⟩
  | decSetBuffer k v hd cap => obtain ⟨_, _, rfl⟩ := onDecoder_next h; exact ⟨rfl, rfl⟩
  | encEncode k cmd payload => obtain ⟨_, _, _, _, _, _, _, rfl⟩ := execEncEncode_next h; exact ⟨rfl, rfl⟩

end Sys2Proof.Machine
end

