-- ==== Sys2Proof/Laws/Operands.lean ====
section
/-! SUPPORT. The big-endian assembly and splitting of values as arithmetic on numbers (R77, R78). -/

namespace Sys2Proof.Machine

theorem shift_or_byte (w : Nat) (r : BitVec w) (b : Byte) :
    (r <<< 8 ||| b.setWidth w) = BitVec.ofNat w (r.toNat * 256 + b.toNat) := by
  have h : (r <<< 8 ||| b.setWidth w) = (r <<< 8 + b.setWidth w) := by
    rw [BitVec.add_eq_or_of_and_eq_zero]
    ext i hi
    simp only [BitVec.getElem_and, BitVec.getElem_shiftLeft, BitVec.getElem_setWidth, BitVec.getElem_zero,
      Bool.and_eq_false_imp, Bool.and_eq_true, Bool.not_eq_true', decide_eq_false_iff_not, Nat.not_lt]
    intro h1
    exact BitVec.getLsbD_of_ge b i h1.1
  rw [h]
  apply BitVec.eq_of_toNat_eq
  simp [BitVec.toNat_add, Nat.shiftLeft_eq]

/-- Shifting a byte into a 16-bit register multiplies it by 256 and adds the byte, modulo 2^16 (R77). -/
theorem shiftIn16_ofNat (r : Half) (b : Byte) : shiftIn16 r b = BitVec.ofNat 16 (r.toNat * 256 + b.toNat) :=
  shift_or_byte 16 r b

/-- Shifting a byte into a 32-bit register multiplies it by 256 and adds the byte, modulo 2^32 (R77). -/
theorem shiftIn32_ofNat (r : Word) (b : Byte) : shiftIn32 r b = BitVec.ofNat 32 (r.toNat * 256 + b.toNat) :=
  shift_or_byte 32 r b

/-- `{x, b}` as a number (R9). -/
theorem append_bytes_ofNat (x b : Byte) : x ++ b = BitVec.ofNat 16 (x.toNat * 256 + b.toNat) := by
  apply BitVec.eq_of_toNat_eq
  have hx := x.isLt
  have hb := b.isLt
  rw [BitVec.toNat_append, ← Nat.shiftLeft_add_eq_or_of_lt hb]
  simp only [Nat.shiftLeft_eq, BitVec.toNat_ofNat]
  omega

/-- `{v[15:8], b}` as a number: what `AwaitMarker2` writes to `SOM` (R121). -/
theorem replace_low_byte_ofNat (v : Half) (b : Byte) :
    v.extractLsb' 8 8 ++ b = BitVec.ofNat 16 (v.toNat / 256 * 256 + b.toNat) := by
  rw [append_bytes_ofNat]
  congr 3
  have hv := v.isLt
  simp only [BitVec.extractLsb'_toNat, Nat.shiftRight_eq_div_pow]
  omega

/-- Splitting a 16-bit value and shifting the bytes in again gives it back (R77, R78). -/
theorem shiftIn16_bytes16 (v : Half) :
    shiftIn16 (shiftIn16 0#16 (v.extractLsb' 8 8)) (v.extractLsb' 0 8) = v := by
  simp only [shiftIn16_ofNat]
  apply BitVec.eq_of_toNat_eq
  have hv := v.isLt
  simp only [BitVec.toNat_ofNat, BitVec.extractLsb'_toNat, Nat.shiftRight_eq_div_pow]
  omega

/-- Splitting a 32-bit value and shifting the bytes in again gives it back (R77, R78). -/
theorem shiftIn32_bytes32 (v : Word) :
    shiftIn32 (shiftIn32 (shiftIn32 (shiftIn32 0#32 (v.extractLsb' 24 8)) (v.extractLsb' 16 8))
      (v.extractLsb' 8 8)) (v.extractLsb' 0 8) = v := by
  simp only [shiftIn32_ofNat]
  apply BitVec.eq_of_toNat_eq
  have hv := v.isLt
  simp only [BitVec.toNat_ofNat, BitVec.extractLsb'_toNat, Nat.shiftRight_eq_div_pow]
  omega

@[simp] theorem bytes16_length (v : Half) : (bytes16 v).length = 2 := rfl
@[simp] theorem bytes32_length (v : Word) : (bytes32 v).length = 4 := rfl

end Sys2Proof.Machine
end

