-- ==== Sys2Proof/Laws/PerInstr.lean ====
section
/-! SUPPORT. Families of statements about every operation as syntax, one lemma per constructor. -/

namespace Sys2Proof.Laws

/-- The operation word of every operation keeps the reserved bits zero and carries the operation's row of the table
(R71, R73). -/
def WordForm.Statement (i : Instr) : Prop :=
  rsvField (encodeWord i) = 0#7 ∧ (tableRow i).spells (encodeWord i) = true

theorem WordForm.crcUpdate (r : Bool) (acc : Half) (bytes : List Byte) :
    WordForm.Statement (.crcUpdate r acc bytes) := by cases r <;> exact ⟨by simp [rsvField, encodeWord], by simp [tableRow, encodeWord, OpcodeRow.spells]⟩

theorem WordForm.decFeed (dec : Nat) (bytes : List Byte) : WordForm.Statement (.decFeed dec bytes) :=
  ⟨by simp [rsvField, encodeWord], by simp [tableRow, encodeWord, OpcodeRow.spells]⟩

theorem WordForm.decReset (dec : Nat) : WordForm.Statement (.decReset dec) := ⟨by simp [rsvField, encodeWord], by simp [tableRow, encodeWord, OpcodeRow.spells]⟩

theorem WordForm.decIsIdle (dec : Nat) : WordForm.Statement (.decIsIdle dec) := ⟨by simp [rsvField, encodeWord], by simp [tableRow, encodeWord, OpcodeRow.spells]⟩

theorem WordForm.decSetBuffer (dec : Nat) (v : Bool) (handle : BufHandle) (cap : Word) :
    WordForm.Statement (.decSetBuffer dec v handle cap) := by cases v <;> exact ⟨by simp [rsvField, encodeWord], by simp [tableRow, encodeWord, OpcodeRow.spells]⟩

theorem WordForm.encEncode (enc : Nat) (cmd : Half) (payload : List Byte) :
    WordForm.Statement (.encEncode enc cmd payload) := ⟨by simp [rsvField, encodeWord], by simp [tableRow, encodeWord, OpcodeRow.spells]⟩

end Sys2Proof.Laws
end

