-- ==== Sys2Proof/Tests/Slice0.lean ====
section
/-! SUPPORT. The model's own tests (expected values from 95_test_vectors.md, or written out from the rule named) and, for
every statement with hypotheses, a named state that meets them. -/

namespace Sys2Proof.Tests

open Sys2Proof.Machine

/-! ### Small states -/

/-- The buffer the vectors call `A`: handle 0. -/
def bufA (cap : Word) : Assignment := { handle := 0, cap := cap }

/-- A decoder at power-on with buffer `A` of so many bytes. -/
def idleDec (cap : Word) : Decoder := { Decoder.powerOn with buffer := some (bufA cap) }

/-- A decoder in a frame with command 0x0001 and declared length 4 ("Before" of V-DEC-14 to V-DEC-19), capacity 8. -/
def midFrame (st : ParseState) (idx : Word) (crc rxcrc : Half) : Decoder :=
  { Decoder.powerOn with
    st := st, cmd := 0x0001#16, len := 4#32, idx := idx, crc := crc, rxcrc := rxcrc, som := 0x55AA#16
    buffer := some (bufA 8#32) }

/-- The reset state with this decoder as its only one. -/
def withDec (d : Decoder) : State := { State.reset with decs := [d] }

/-- The reset state with these acts of the host to come. -/
def withQueue (acts : List HostAction) : State := { State.reset with queue := acts }

/-- Host memory in which these bytes of `A` are known, from offset 0 on. -/
def memA (bytes : List Byte) : HostMem :=
  { HostMem.powerOn with cells := (List.range bytes.length).zip bytes }

/-- The next state, if there is one. -/
def nextOf (o : Host.Outcome State Fault Refusal) : Option State :=
  match o with
  | .next s => some s
  | .fault _ => none
  | .refused _ => none

/-- Decoder 0 of the next state, if there is one. -/
def decOf (o : Host.Outcome State Fault Refusal) : Option Decoder := (nextOf o).bind (fun s => s.decs[0]?)

/-- The frame of S1 (95_test_vectors.md), called `F` there. -/
def frameF : List Byte :=
  [0x55#8, 0xAA#8, 0x00#8, 0x01#8, 0x00#8, 0x00#8, 0x00#8, 0x04#8, 0xBE#8, 0xEF#8, 0xCA#8, 0xFE#8, 0xAB#8, 0xD9#8]

/-! ### Well-formedness: the one check, and an ill-formed term it refuses (R74, R172) -/

theorem wellFormed_of_replicate (n : Nat) :
    (Instr.encEncode 0 0x0001#16 (List.replicate n 0x00#8)).wellFormed = decide (n < 4294967296) := by
  simp [Instr.wellFormed]

theorem test_wellFormed_refuses_long_payload :
    (Instr.encEncode 0 0x0001#16 (List.replicate 4294967296 0x00#8)).wellFormed = false :=
  (wellFormed_of_replicate _).trans (by decide)

theorem test_wellFormed_accepts_longest_payload :
    (Instr.encEncode 0 0x0001#16 (List.replicate 4294967295 0x00#8)).wellFormed = true :=
  (wellFormed_of_replicate _).trans (by decide)

/-! ### Decoding: the words of R73, written out bit by bit, `RSV` (7 bits), `F`, `OPC` -/

theorem test_decode_crcUpdate :
    decode (0b0000000#7 ++ 0b0#1 ++ 0b00000001#8) { OperandRecord.zero with acc := 0x1234#16, bytes := [0x41#8] }
      = .ok (.crcUpdate false 0x1234#16 [0x41#8]) ∧
    decode (0b0000000#7 ++ 0b1#1 ++ 0b00000001#8) OperandRecord.zero = .ok (.crcUpdate true 0x0000#16 []) :=
  ⟨rfl, rfl⟩

theorem test_decode_decFeed :
    decode (0b0000000#7 ++ 0b0#1 ++ 0b00010000#8) { OperandRecord.zero with bytes := [0x55#8, 0xAA#8] }
      = .ok (.decFeed 0 [0x55#8, 0xAA#8]) := rfl

theorem test_decode_decReset :
    decode (0b0000000#7 ++ 0b0#1 ++ 0b00010001#8) { OperandRecord.zero with target := 2 } = .ok (.decReset 2) := rfl

theorem test_decode_decIsIdle :
    decode (0b0000000#7 ++ 0b0#1 ++ 0b00010010#8) OperandRecord.zero = .ok (.decIsIdle 0) := rfl

theorem test_decode_decSetBuffer :
    decode (0b0000000#7 ++ 0b0#1 ++ 0b00010011#8) OperandRecord.zero = .ok (.decSetBuffer 0 false 0 0#32) ∧
    decode (0b0000000#7 ++ 0b1#1 ++ 0b00010011#8) { OperandRecord.zero with handle := 5, cap := 8#32 }
      = .ok (.decSetBuffer 0 true 5 8#32) := ⟨rfl, rfl⟩

theorem test_decode_encEncode :
    decode (0b0000000#7 ++ 0b0#1 ++ 0b00100000#8) { OperandRecord.zero with cmd := 0x0001#16, bytes := [0xBE#8] }
      = .ok (.encEncode 0 0x0001#16 [0xBE#8]) := rfl

/-- V-OPW-09 to V-OPW-13. -/
theorem test_decode_refuses :
    decode 0x0000#16 OperandRecord.zero = .error .unassignedOpcode ∧
    decode 0x0110#16 OperandRecord.zero = .error .reservedFlag ∧
    decode 0x0201#16 OperandRecord.zero = .error .reservedBits ∧
    decode 0x0021#16 OperandRecord.zero = .error .unassignedOpcode ∧
    decode 0xFFFF#16 OperandRecord.zero = .error .reservedBits := ⟨rfl, rfl, rfl, rfl, rfl⟩

/-- V-OPW-01 to V-OPW-08, as the opcode table numbers them; a word that needs a 17th bit is refused. -/
theorem test_decodeTableWord :
    [0x0001, 0x0101, 0x0010, 0x0011, 0x0012, 0x0013, 0x0113, 0x0020].map (decodeTableWord 16) =
      [some (.crcUpdate false 0x0000#16 []), some (.crcUpdate true 0x0000#16 []), some (.decFeed 0 []),
       some (.decReset 0), some (.decIsIdle 0), some (.decSetBuffer 0 false 0 0#32),
       some (.decSetBuffer 0 true 0 0#32), some (.encEncode 0 0x0000#16 [])] ∧
    decodeTableWord 17 0x10001 = none := ⟨rfl, rfl⟩

/-! ### The textual notation (R85, R86) -/

theorem test_assemble_crc_update :
    assembleLine [] "crc_update 0x1234, 1, [31 32] ; a comment" =
      some { word := 0x0101#16, depth := 0
             operands := { OperandRecord.zero with acc := 0x1234#16, bytes := [0x31#8, 0x32#8] } } := by
  decide

theorem test_assemble_names_and_frame :
    assembleLine [("A".toList, 7), ("d1".toList, 1)] "@d1 dec_set_buffer 1, A, 8" =
      some { word := 0x0113#16, depth := 0
             operands := { OperandRecord.zero with target := 1, handle := 7, cap := 8#32 } } ∧
    assembleLine [] "dec_feed frame(0x0001, [BE EF CA FE])" =
      some { word := 0x0010#16, depth := 0, operands := { OperandRecord.zero with bytes := frameF } } := by
  constructor <;> decide

/-! ### One step of each operation -/

/-- V-CRC-07: the check value. -/
theorem test_crcUpdate_check_value :
    (nextOf (exec (.crcUpdate true 0x0000#16
        [0x31#8, 0x32#8, 0x33#8, 0x34#8, 0x35#8, 0x36#8, 0x37#8, 0x38#8, 0x39#8]) State.reset)).map State.result
      = some (.acc 0x29B1#16) := by decide

/-- V-CRC-14, second line: folding goes on from `ACC`. -/
theorem test_crcUpdate_continues :
    (nextOf (exec (.crcUpdate false 0x0D2E#16 [0x00#8, 0x00#8, 0x00#8, 0x04#8]) State.reset)).map State.result
      = some (.acc 0xE4C5#16) := by decide

/-- P5: three frames in one chunk, capacity 4; each snapshot its own, the buffer at the end a mix. -/
theorem test_decFeed_three_frames :
    (nextOf (exec (.decFeed 0 (frameF
        ++ [0x55#8, 0xAA#8, 0x12#8, 0x34#8, 0x00#8, 0x00#8, 0x00#8, 0x00#8, 0x1A#8, 0x3C#8]
        ++ [0x55#8, 0xAA#8, 0xAB#8, 0xCD#8, 0x00#8, 0x00#8, 0x00#8, 0x02#8, 0x55#8, 0xAA#8, 0x76#8, 0xED#8]))
        (withDec (idleDec 4#32)))).map (fun t => (t.decs, t.mem.cells))
      = some ([{ idleDec 4#32 with
          som := 0x55AA#16
          events := [.frame 0x0001#16 4#32 [0xBE#8, 0xEF#8, 0xCA#8, 0xFE#8], .frame 0x1234#16 0#32 [],
            .frame 0xABCD#16 2#32 [0x55#8, 0xAA#8]] }],
        [(0, 0x55#8), (1, 0xAA#8), (2, 0xCA#8), (3, 0xFE#8)]) := by decide

/-- P17: a repeated marker pair is read as a header, the length is too large, the rest is scanned for markers. -/
theorem test_decFeed_repeated_markers :
    (decOf (exec (.decFeed 0 ([0x55#8, 0xAA#8, 0x55#8, 0xAA#8] ++ frameF)) (withDec (idleDec 8#32)))).map
        (fun d => (d.st, d.som, d.events))
      = some (.awaitMarker1, 0xD900#16,
          .error .lengthTooLarge 0x55AA#16 0x55AA0001#32 0x55AA#16 (some 0) ::
          [0x0000#16, 0x0000#16, 0x0000#16, 0x0400#16, 0xBE00#16, 0xEF00#16, 0xCA00#16, 0xFE00#16, 0xAB00#16,
           0xD900#16].map (fun som => .error .badMarker1 0x0000#16 0#32 som (some 0))) := by decide

/-- V-CTL-01. -/
theorem test_decReset_mid_frame :
    decOf (exec (.decReset 0) (withDec (midFrame .payload 2#32 0x645C#16 0x0000#16)))
      = some { idleDec 8#32 with som := 0x55AA#16 } := by decide

/-- V-CTL-03 and V-CTL-04. -/
theorem test_decIsIdle :
    (nextOf (exec (.decIsIdle 0) State.reset)).map State.result = some (.idle true) ∧
    (nextOf (exec (.decIsIdle 0) (withDec { idleDec 8#32 with st := .awaitMarker2 }))).map State.result
      = some (.idle false) := by decide

/-- V-CTL-07. -/
theorem test_decSetBuffer_assigns :
    decOf (exec (.decSetBuffer 0 true 0 8#32) State.reset) = some (idleDec 8#32) := by decide

/-- V-CTL-08. -/
theorem test_decSetBuffer_removes :
    decOf (exec (.decSetBuffer 0 false 3 9#32) (withDec (midFrame .payload 1#32 0x3EBF#16 0x0000#16)))
      = some { midFrame .payload 1#32 0x3EBF#16 0x0000#16 with buffer := none } := by decide

/-- V-ENC-01. -/
theorem test_encEncode_five_transactions :
    (nextOf (exec (.encEncode 0 0x0001#16 [0xBE#8, 0xEF#8, 0xCA#8, 0xFE#8]) State.reset)).map State.sinks
      = some [{ answers := [], log :=
          [.acquire, .write [0x55#8, 0xAA#8, 0x00#8, 0x01#8, 0x00#8, 0x00#8, 0x00#8, 0x04#8],
           .write [0xBE#8, 0xEF#8, 0xCA#8, 0xFE#8], .write [0xAB#8, 0xD9#8], .release] }] := by decide

/-- V-ENC-02. -/
theorem test_encEncode_empty_payload :
    (nextOf (exec (.encEncode 0 0x1234#16 []) State.reset)).map State.sinks
      = some [{ answers := [], log :=
          [.acquire, .write [0x55#8, 0xAA#8, 0x12#8, 0x34#8, 0x00#8, 0x00#8, 0x00#8, 0x00#8],
           .write [0x1A#8, 0x3C#8], .release] }] := by decide

/-- R101 (a) and V-CRC-01, V-CRC-02, V-CRC-05, V-CRC-08: the fold. -/
theorem test_fold :
    fold 0xFFFF#16 0x00#8 = 0xE1F0#16 ∧ fold 0xFFFF#16 0xFF#8 = 0xFF00#16 ∧ fold 0x0000#16 0x01#8 = 0x1021#16 ∧
    fold 0x0000#16 0x80#8 = 0x9188#16 ∧ fold 0x8000#16 0x00#8 = 0x9188#16 ∧ fold 0x1D0F#16 0x00#8 = 0xCC9C#16 := by
  decide

/-- A step from reset with a word placed runs that operation (V-OPW-05, R141). -/
theorem test_step_runs_fetch_word :
    (nextOf (step (State.reset.withFetchWord 16 0x0012))).map (fun t => (t.result, t.queue))
      = some (.idle true, []) := by decide

/-! ### Witnesses: for every statement with hypotheses, states and operands that meet them together

Each theorem gives the hypotheses of one statement, instantiated; where a statement has several clauses, one theorem or
one conjunct per clause, at a boundary of its range. -/

/-- A request the host issues, nothing else in progress. -/
def hostOp (w : Half) (r : OperandRecord) : HostAction := .op { word := w, operands := r, depth := 0 }

/-- The same request issued within so many operations. -/
def nestedOp (w : Half) (r : OperandRecord) (depth : Nat) : HostAction :=
  .op { word := w, operands := r, depth := depth }

theorem witness_WordSelectsOperationByMaskAndMatch :
    OperandRecord.zero.bytes.length < 4294967296 ∧ (0x0001#16, 0xFEFF#16) ∈ opcodeTable ∧
    0x0101#16 &&& 0xFEFF#16 = 0x0001#16 ∧ (0x0020#16, 0xFFFF#16) ∈ opcodeTable ∧
    0x0020#16 &&& 0xFFFF#16 = 0x0020#16 ∧
    decode 0x0101#16 OperandRecord.zero = .ok (.crcUpdate true 0x0000#16 []) :=
  ⟨by decide, by decide, by decide, by decide, by decide, rfl⟩

theorem witness_DecodeAndEncodeAgree :
    (Instr.encEncode 0 0x0001#16 (List.replicate 4294967295 0x00#8)).wellFormed = true ∧
    decode 0x0113#16 { OperandRecord.zero with handle := 7, cap := 0xFFFFFFFF#32 }
      = .ok (.decSetBuffer 0 true 7 0xFFFFFFFF#32) :=
  ⟨test_wellFormed_accepts_longest_payload, rfl⟩

theorem witness_ReservedWordsAreRefused :
    ((0x0201#16).toNat / 512 ≠ 0) ∧ ((0x0000#16).toNat % 256 ∉ [0x01, 0x10, 0x11, 0x12, 0x13, 0x20]) ∧
    ((0x0021#16).toNat % 256 ∉ [0x01, 0x10, 0x11, 0x12, 0x13, 0x20]) ∧
    ((0x0110#16).toNat / 256 % 2 = 1 ∧ (0x0110#16).toNat % 256 ∈ [0x10, 0x11, 0x12, 0x20]) ∧
    ((0x0120#16).toNat / 256 % 2 = 1 ∧ (0x0120#16).toNat % 256 ∈ [0x10, 0x11, 0x12, 0x20]) ∧
    (withQueue [hostOp 0x0201#16 OperandRecord.zero]).queue =
      .op { word := 0x0201#16, operands := OperandRecord.zero, depth := 0 } :: [] ∧
    (withQueue [.opInTurns { word := 0x0201#16, operands := OperandRecord.zero, depth := 0 }]).queue =
      .opInTurns { word := 0x0201#16, operands := OperandRecord.zero, depth := 0 } :: [] := by decide

theorem witness_StepRunsDecodedOperation :
    (withQueue [hostOp 0x0012#16 OperandRecord.zero]).queue = hostOp 0x0012#16 OperandRecord.zero :: [] ∧
    decode 0x0012#16 OperandRecord.zero = .ok (.decIsIdle 0) ∧ target (.decIsIdle 0) = some (.decoder 0) ∧
    Agent.decoder 0 ∉ [Agent.decoder 1, .decoder 0].take 1 ∧ target (.crcUpdate true 0x0000#16 []) = none ∧
    decodeTableWord 16 0x0012 = some (.decIsIdle 0) ∧
    decodeTableWord 16 0x0020 = some (.encEncode 0 0x0000#16 []) ∧
    State.reset.encs[0]? = some { sink := 0, pending := [] } :=
  ⟨rfl, rfl, rfl, by decide, rfl, rfl, rfl, rfl⟩

theorem witness_IdleMachineKeepsItsState : State.reset.queue = [] := rfl

/-- The clauses at their boundary: decoder 0 is the second in `chain`, and a reset of it is issued within two operations,
and within one; and an encoder with one transaction to issue. -/
theorem witness_ReentrantOperationIsRefused :
    (withQueue [nestedOp 0x0011#16 OperandRecord.zero 2]).queue = nestedOp 0x0011#16 OperandRecord.zero 2 :: [] ∧
    decode 0x0011#16 OperandRecord.zero = .ok (.decReset 0) ∧ target (.decReset 0) = some (.decoder 0) ∧
    Agent.decoder 0 ∈ [Agent.decoder 1, .decoder 0].take 2 ∧
    Agent.decoder 0 ∉ [Agent.decoder 1, .decoder 0].take 1 ∧
    target (.encEncode 0 0x0000#16 []) = some (.encoder 0) ∧
    decode 0x0020#16 OperandRecord.zero = .ok (.encEncode 0 0x0000#16 []) ∧
    ({ State.reset with encs := [{ sink := 0, pending := [.release] }] } : State).encs[0]?
      = some { sink := 0, pending := [.release] } :=
  ⟨rfl, rfl, rfl, by decide, by decide, rfl, rfl, rfl⟩

/-- Two decoders, and the host's acts: feed decoder 0, from its consumer feed decoder 1, from that one's consumer reset
decoder 0. -/
def nestedFeeds : State :=
  { State.reset with
    decs := [Decoder.powerOn, Decoder.powerOn]
    queue := [nestedOp 0x0010#16 { OperandRecord.zero with bytes := [0x55#8] } 0,
      nestedOp 0x0010#16 { OperandRecord.zero with target := 1, bytes := [0x55#8] } 1,
      nestedOp 0x0011#16 OperandRecord.zero 2] }

/-- The first two operations complete (`NO_BUFFER` events), and the third is for the decoder of the first. -/
theorem witness_NestedReentryIsRefused :
    ((nextOf (step nestedFeeds)).bind (fun t => nextOf (step t))).map State.chain = some [.decoder 0, .decoder 1] ∧
    target (.decFeed 0 [0x55#8]) = some (.decoder 0) ∧ target (.decReset 0) = some (.decoder 0) ∧
    decode 0x0010#16 { OperandRecord.zero with bytes := [0x55#8] } = .ok (.decFeed 0 [0x55#8]) ∧
    decode 0x0011#16 OperandRecord.zero = .ok (.decReset 0) :=
  ⟨by decide, rfl, rfl, rfl, rfl⟩

/-- R233: within a feed of decoder 1 within a feed of decoder 0, a reset of decoder 0 is refused. -/
theorem test_nested_reentry_is_refused :
    step { State.reset with
      chain := [.decoder 0, .decoder 1], queue := [nestedOp 0x0011#16 OperandRecord.zero 2] }
      = .refused .reentrant := rfl

theorem witness_ConstructionIsPowerOnReset :
    (withQueue [.newDecoder none]).queue = .newDecoder none :: [] ∧
    (withQueue [.newDecoder (some (bufA 8#32))]).queue = .newDecoder (some (bufA 8#32)) :: [] := ⟨rfl, rfl⟩

theorem witness_EncoderIsConstructedWithItsSink :
    (withQueue [.newEncoder none]).queue = .newEncoder none :: [] ∧
    (withQueue [.newEncoder (some 0)]).queue = .newEncoder (some 0) :: [] ∧
    0 < (withQueue [.newEncoder (some 0)]).sinks.length ∧
    (withQueue [.newEncoder (some 1)]).queue = .newEncoder (some 1) :: [] ∧
    (withQueue [.newEncoder (some 1)]).sinks.length ≤ 1 := by decide

theorem witness_UnknownAgentIsRefused :
    State.reset.decs[1]? = none ∧ State.reset.encs[1]? = none ∧ ([] : List Byte).length < 4294967296 ∧
    ({ State.reset with sinks := [] } : State).encs[0]? = some { sink := 0, pending := [] } ∧
    ({ State.reset with sinks := [] } : State).sinks[0]? = none := by decide

theorem witness_CrcSplitInvariance :
    exec (.crcUpdate true 0x0000#16 []) State.reset = .next { State.reset with result := .acc 0xFFFF#16 } := rfl

theorem witness_NoBufferRaisesErrorPerByte :
    (withDec Decoder.powerOn).decs[0]? = some Decoder.powerOn ∧ Decoder.powerOn.buffer = none := by decide

/-- Both clauses: the first marker value, and one that is not. -/
theorem witness_AwaitMarker1Byte :
    (withDec (idleDec 0#32)).decs[0]? = some (idleDec 0#32) ∧ (idleDec 0#32).buffer = some (bufA 0#32) ∧
    (idleDec 0#32).st = .awaitMarker1 ∧ 0xAA#8 ≠ 0x55#8 := by decide

theorem witness_AwaitMarker2Byte :
    (withDec { idleDec 8#32 with st := .awaitMarker2, som := 0x5500#16 }).decs[0]?
      = some { idleDec 8#32 with st := .awaitMarker2, som := 0x5500#16 } ∧ 0x55#8 ≠ 0xAA#8 := by decide

/-- One state for each clause. -/
theorem witness_HeaderBytes :
    ∀ st ∈ [ParseState.commandHigh, .commandLow, .lengthByte0, .lengthByte1, .lengthByte2],
      (withDec (midFrame st 0#32 0xFFFF#16 0x0000#16)).decs[0]? = some (midFrame st 0#32 0xFFFF#16 0x0000#16) ∧
      (midFrame st 0#32 0xFFFF#16 0x0000#16).buffer = some (bufA 8#32) ∧
      (midFrame st 0#32 0xFFFF#16 0x0000#16).st = st := by decide

/-- The three clauses at their boundaries: one above the capacity, zero with capacity zero, one, and the capacity. -/
theorem witness_LastLengthByte :
    (withDec { idleDec 8#32 with st := .lengthByte3 }).decs[0]? = some { idleDec 8#32 with st := .lengthByte3 } ∧
    ({ idleDec 8#32 with st := .lengthByte3 } : Decoder).len = 0#32 ∧
    9#32 = BitVec.ofNat 32 ((0#32).toNat * 256 + (9#8).toNat) ∧ (bufA 8#32).cap < 9#32 ∧
    0#32 = BitVec.ofNat 32 ((0#32).toNat * 256 + (0#8).toNat) ∧ ¬ (bufA 0#32).cap < 0#32 ∧
    1#32 = BitVec.ofNat 32 ((0#32).toNat * 256 + (1#8).toNat) ∧ 0#32 < 1#32 ∧ 1#32 ≤ (bufA 1#32).cap ∧
    8#32 = BitVec.ofNat 32 ((0#32).toNat * 256 + (8#8).toNat) ∧ 0#32 < 8#32 ∧ 8#32 ≤ (bufA 8#32).cap := by decide

/-- The overrun clause where the index meets the capacity below the length, and where it meets the length. -/
theorem witness_PayloadByte_overrun :
    (withDec { midFrame .payload 1#32 0x3EBF#16 0x0000#16 with buffer := some (bufA 1#32) }).decs[0]?
      = some { midFrame .payload 1#32 0x3EBF#16 0x0000#16 with buffer := some (bufA 1#32) } ∧
    (bufA 1#32).cap ≤ (midFrame .payload 1#32 0x3EBF#16 0x0000#16).idx ∧
    (midFrame .payload 4#32 0x3EBF#16 0x0000#16).len ≤ (midFrame .payload 4#32 0x3EBF#16 0x0000#16).idx := by decide

/-- The writing clause at the first and at the last payload byte; the last also fills the buffer. -/
theorem witness_PayloadByte_write :
    (withDec (midFrame .payload 0#32 0xE4C5#16 0x0000#16)).decs[0]?
      = some (midFrame .payload 0#32 0xE4C5#16 0x0000#16) ∧
    0#32 < (midFrame .payload 0#32 0xE4C5#16 0x0000#16).len ∧ 3#32 < (midFrame .payload 3#32 0x0824#16 0x0000#16).len ∧
    3#32 < (bufA 4#32).cap ∧ State.reset.mem.writeFault 0 0 = none ∧
    ({ HostMem.powerOn with extents := [(0, some 4)] } : HostMem).writeFault 0 3 = none := by decide

/-- Both clauses: memory that has ended, and an index just beyond the named memory. -/
theorem witness_WriteOutsideLiveMemoryFaults :
    (withDec (midFrame .payload 2#32 0x645C#16 0x0000#16)).decs[0]?
      = some (midFrame .payload 2#32 0x645C#16 0x0000#16) ∧
    (midFrame .payload 2#32 0x645C#16 0x0000#16).idx < (midFrame .payload 2#32 0x645C#16 0x0000#16).len ∧
    (midFrame .payload 2#32 0x645C#16 0x0000#16).idx < (bufA 8#32).cap ∧
    lookup (bufA 8#32).handle [(0, (none : Option Nat))] = some none ∧
    lookup (bufA 8#32).handle [(0, some 2)] = some (some 2) ∧
    2 ≤ (midFrame .payload 2#32 0x645C#16 0x0000#16).idx.toNat := by decide

theorem witness_ChecksumHighByte :
    (withDec (midFrame .checksumHigh 4#32 0xABD9#16 0x0000#16)).decs[0]?
      = some (midFrame .checksumHigh 4#32 0xABD9#16 0x0000#16) ∧
    (midFrame .checksumHigh 4#32 0xABD9#16 0x0000#16).buffer = some (bufA 8#32) := by decide

/-- Both verdicts (V-DEC-18, V-DEC-19), and a byte of the buffer that is known. -/
theorem witness_ChecksumLowByte :
    (withDec (midFrame .checksumLow 4#32 0xABD9#16 0x00AB#16)).decs[0]?
      = some (midFrame .checksumLow 4#32 0xABD9#16 0x00AB#16) ∧
    BitVec.ofNat 16 ((0x00AB#16).toNat * 256 + (0xD9#8).toNat) = 0xABD9#16 ∧
    BitVec.ofNat 16 ((0x00AB#16).toNat * 256 + (0xD8#8).toNat) ≠ 0xABD9#16 ∧
    3 < (midFrame .checksumLow 4#32 0xABD9#16 0x00AB#16).len.toNat ∧
    (memA [0xBE#8, 0xEF#8, 0xCA#8, 0xFE#8]).known (bufA 8#32).handle 3 = some 0xFE#8 := by decide

/-- The first and the last unused code. -/
theorem witness_UnusedStateByte :
    (withDec (midFrame (.unused 0) 0#32 0xFFFF#16 0x0000#16)).decs[0]?
      = some (midFrame (.unused 0) 0#32 0xFFFF#16 0x0000#16) ∧
    (withDec (midFrame (.unused 4) 0#32 0xFFFF#16 0x0000#16)).decs[0]?
      = some (midFrame (.unused 4) 0#32 0xFFFF#16 0x0000#16) := by decide

theorem witness_DecResetAbandonsPartialFrame :
    (withDec (midFrame .payload 2#32 0x645C#16 0x0000#16)).decs[0]?
      = some (midFrame .payload 2#32 0x645C#16 0x0000#16) := by decide

theorem witness_DecIsIdleReportsAwaitMarker1 :
    (withDec (idleDec 8#32)).decs[0]? = some (idleDec 8#32) ∧ (idleDec 8#32).st = .awaitMarker1 ∧
    (withDec (midFrame .checksumLow 4#32 0xABD9#16 0x00AB#16)).decs[0]?
      = some (midFrame .checksumLow 4#32 0xABD9#16 0x00AB#16) ∧
    (midFrame .checksumLow 4#32 0xABD9#16 0x00AB#16).st ≠ .awaitMarker1 := by decide

theorem witness_DecSetBufferWritesConfiguration : State.reset.decs[0]? = some Decoder.powerOn := rfl

/-! The invariants in states inside a frame. -/

theorem inv_of_idleDec (cap : Word) : (idleDec cap).inv := ⟨rfl, rfl, rfl, rfl, rfl⟩

theorem inv_of_first_payload_byte : (midFrame .payload 0#32 0xE4C5#16 0x0000#16).inv := by
  refine ⟨?_, ?_, ?_, ?_⟩ <;> first | decide | rfl

theorem stateInv_withDec {d : Decoder} (h : d.inv) : (withDec d).inv where
  decoders := by simpa [withDec] using h
  cells := List.Pairwise.nil
  extents := List.Pairwise.nil
  sinks := by simp [withDec, State.reset]
  pending := fun e he => ⟨0x0000#16, [], by simp_all [withDec, State.reset]⟩
  chain := List.nodup_nil

theorem witness_ChunkInvariance :
    (withDec (midFrame .payload 0#32 0xE4C5#16 0x0000#16)).inv ∧ [[0xBE#8, 0xEF#8], []] ≠ [] :=
  ⟨stateInv_withDec inv_of_first_payload_byte, by simp⟩

/-- The shortest block and one that fills the buffer. -/
theorem witness_BlockCopyEqualsPayloadSteps :
    (midFrame .payload 0#32 0xE4C5#16 0x0000#16).buffer = some (bufA 8#32) ∧
    (midFrame .payload 0#32 0xE4C5#16 0x0000#16).idx = 0#32 ∧
    (midFrame .payload 0#32 0xE4C5#16 0x0000#16).len ≤ (bufA 4#32).cap ∧
    0 < [0xBE#8, 0xEF#8, 0xCA#8, 0xFE#8].length ∧
    [0xBE#8, 0xEF#8, 0xCA#8, 0xFE#8].length = (midFrame .payload 0#32 0xE4C5#16 0x0000#16).len.toNat := by decide

theorem witness_BlockPathIsNotObservable : (idleDec 8#32).inv := inv_of_idleDec _

theorem writable_at_reset (h : BufHandle) (n : Nat) : HostMem.powerOn.writable h n := fun _ _ => rfl

/-- With a buffer whose memory holds its capacity, and with none. -/
theorem witness_FeedCompletes :
    (withDec (idleDec 0xFFFFFFFF#32)).decs[0]? = some (idleDec 0xFFFFFFFF#32) ∧
    (∀ a, (idleDec 0xFFFFFFFF#32).buffer = some a →
      (withDec (idleDec 0xFFFFFFFF#32)).mem.writable a.handle a.cap.toNat) ∧
    (∀ a, Decoder.powerOn.buffer = some a → State.reset.mem.writable a.handle a.cap.toNat) :=
  ⟨rfl, fun a _ => writable_at_reset a.handle a.cap.toNat, fun a _ => writable_at_reset a.handle a.cap.toNat⟩

/-- A byte fed that changes a cell, and a byte that raises an error. -/
theorem witness_NoWriteOutOfBounds :
    (nextOf (exec (.decFeed 0 [0xBE#8]) (withDec (midFrame .payload 0#32 0xE4C5#16 0x0000#16)))).map
      (fun t => decide (t.mem.known 0 0 ≠ State.reset.mem.known 0 0)) = some true ∧
    decOf (exec (.decFeed 0 [0x00#8]) (withDec (idleDec 8#32)))
      = some { idleDec 8#32 with events := [.error .badMarker1 0x0000#16 0#32 0x0000#16 (some 0)] } := by decide

theorem witness_OneByteCausesAtMostOneEvent :
    (withDec (idleDec 8#32)).decs[0]? = some (idleDec 8#32) ∧
    (nextOf (exec (.decFeed 0 [0x00#8]) (withDec (idleDec 8#32)))).isSome = true := by decide

/-- The worst case: a first marker, then a frame that fills the buffer. -/
theorem witness_DecoderIsNeverStuck :
    (withDec (idleDec 4#32)).decs[0]? = some (idleDec 4#32) ∧ (idleDec 4#32).inv ∧
    (idleDec 4#32).buffer = some (bufA 4#32) ∧
    (withDec (idleDec 4#32)).mem.writable (bufA 4#32).handle (bufA 4#32).cap.toNat ∧
    frameF.length = 10 + (bufA 4#32).cap.toNat :=
  ⟨rfl, inv_of_idleDec _, rfl, writable_at_reset _ _, rfl⟩

/-- A payload that fills the buffer, in memory of exactly that size, with the right checksum and with another. -/
theorem witness_FrameIsAcceptedExactlyOnItsChecksum :
    (withDec (idleDec 4#32)).decs[0]? = some (idleDec 4#32) ∧ (idleDec 4#32).buffer = some (bufA 4#32) ∧
    (idleDec 4#32).st = .awaitMarker1 ∧ [0xBE#8, 0xEF#8, 0xCA#8, 0xFE#8].length ≤ (bufA 4#32).cap.toNat ∧
    ({ HostMem.powerOn with extents := [(0, some 4)] } : HostMem).writable 0 4 ∧
    0xABD9#16 = fcs 0x0001#16 4#32 [0xBE#8, 0xEF#8, 0xCA#8, 0xFE#8] ∧
    0xABD8#16 ≠ fcs 0x0001#16 4#32 [0xBE#8, 0xEF#8, 0xCA#8, 0xFE#8] := by decide

/-- The frame of S1 from encoder 0, fed in the three chunks of P2 to a decoder whose buffer it fills. -/
theorem witness_EncodeDecodeRoundTrip :
    State.reset.encs[0]? = some { sink := 0, pending := [] } ∧ State.reset.sinks[0]? = some Sink.empty ∧
    (nextOf (exec (.encEncode 0 0x0001#16 [0xBE#8, 0xEF#8, 0xCA#8, 0xFE#8]) State.reset)).map State.sinks
      = some [{ log := Sink.empty.log ++ frameTransactions 0x0001#16 [0xBE#8, 0xEF#8, 0xCA#8, 0xFE#8],
                answers := [] }] ∧
    [frameF.take 3, (frameF.drop 3).take 6, frameF.drop 9].flatten
      = (frameTransactions 0x0001#16 [0xBE#8, 0xEF#8, 0xCA#8, 0xFE#8]).flatMap SinkTx.bytes ∧
    (withDec (idleDec 4#32)).decs[0]? = some (idleDec 4#32) ∧ (idleDec 4#32).buffer = some (bufA 4#32) ∧
    (idleDec 4#32).st = .awaitMarker1 ∧ 4 ≤ (bufA 4#32).cap.toNat ∧
    (withDec (idleDec 4#32)).mem.writable (bufA 4#32).handle 4 := by decide

/-- P3's corrupted byte, and the boundaries of the two ranges: offsets 2, 3, 8 and 11. -/
theorem witness_SingleCorruptedByteIsDetected :
    (withDec (idleDec 4#32)).decs[0]? = some (idleDec 4#32) ∧ (idleDec 4#32).buffer = some (bufA 4#32) ∧
    4 ≤ (bufA 4#32).cap.toNat ∧ (withDec (idleDec 4#32)).mem.writable (bufA 4#32).handle 4 ∧
    (frameBytes 0x0001#16 [0xBE#8, 0xEF#8, 0xCA#8, 0xFE#8])[2]? ≠ some 0x01#8 ∧
    (frameBytes 0x0001#16 [0xBE#8, 0xEF#8, 0xCA#8, 0xFE#8])[3]? ≠ some 0x00#8 ∧
    (frameBytes 0x0001#16 [0xBE#8, 0xEF#8, 0xCA#8, 0xFE#8])[8]? ≠ some 0x00#8 ∧
    (frameBytes 0x0001#16 [0xBE#8, 0xEF#8, 0xCA#8, 0xFE#8])[9]? ≠ some 0xEE#8 ∧
    (frameBytes 0x0001#16 [0xBE#8, 0xEF#8, 0xCA#8, 0xFE#8])[11]? ≠ some 0xAB#8 ∧ 11 < 8 + 4 := by decide

theorem witness_TwoFramesGiveTwoEventsInOrder :
    (withDec (idleDec 4#32)).decs[0]? = some (idleDec 4#32) ∧ (idleDec 4#32).buffer = some (bufA 4#32) ∧
    (idleDec 4#32).st = .awaitMarker1 ∧ [0xBE#8, 0xEF#8, 0xCA#8, 0xFE#8].length ≤ (bufA 4#32).cap.toNat ∧
    ([] : List Byte).length ≤ (bufA 4#32).cap.toNat ∧
    (withDec (idleDec 4#32)).mem.writable (bufA 4#32).handle (bufA 4#32).cap.toNat := by decide

theorem witness_LoneMarkerLosesTheFrameStart :
    (withDec (idleDec 8#32)).decs[0]? = some (idleDec 8#32) ∧ (idleDec 8#32).buffer = some (bufA 8#32) ∧
    (idleDec 8#32).st = .awaitMarker1 ∧ (idleDec 8#32).cmd = 0x0000#16 ∧ (idleDec 8#32).len = 0#32 := by decide

/-- With no payload and with one; a sink that lists no answers, one whose listed answers are short writes, and one whose
fifth transaction never returns, which a frame without payload does not reach. -/
theorem witness_EncodeIssuesFrameTransactions :
    ([] : List Byte).length < 4294967296 ∧ [0xBE#8].length < 4294967296 ∧
    State.reset.encs[0]? = some { sink := 0, pending := [] } ∧ State.reset.sinks[0]? = some Sink.empty ∧
    (∀ x ∈ Sink.empty.answers.take (if [0xBE#8].length = 0 then 4 else 5), x ≠ .never) ∧
    (∀ x ∈ [SinkAnswer.returned 0, .returned 1, .returned 0, .returned 0, .returned 0].take
      (if [0xBE#8].length = 0 then 4 else 5), x ≠ .never) ∧
    (∀ x ∈ [SinkAnswer.returned 0, .returned 8, .returned 2, .returned 0, .never].take
      (if ([] : List Byte).length = 0 then 4 else 5), x ≠ .never) := by decide

theorem witness_TooLongPayloadIsRefused :
    4294967296 ≤ (List.replicate 4294967296 0x00#8).length ∧
    4294967296 ≤ ({ OperandRecord.zero with bytes := List.replicate 4294967296 0x00#8 } : OperandRecord).bytes.length :=
  ⟨(List.length_replicate (n := 4294967296) (a := 0x00#8)).ge,
   (List.length_replicate (n := 4294967296) (a := 0x00#8)).ge⟩

/-- The last transaction of a frame without payload, and of one with. -/
theorem witness_EncodeIsStuckWhenSinkNeverReturns :
    (3 < if ([] : List Byte).length = 0 then 4 else 5) ∧ (4 < if [0xBE#8].length = 0 then 4 else 5) ∧
    [SinkAnswer.returned 0, .returned 8, .returned 2, .never][3]? = some .never ∧
    [SinkAnswer.returned 0, .returned 8, .returned 1, .returned 2, .never][4]? = some .never ∧
    State.reset.encs[0]? = some { sink := 0, pending := [] } ∧
    ({ State.reset with sinks := [{ log := [], answers := [.returned 0, .returned 8, .returned 2, .never] }] }
      : State).sinks[0]? = some { log := [], answers := [.returned 0, .returned 8, .returned 2, .never] } := by decide

/-- The two encoders of the next test: they share sink 0. -/
def twoEncoders (queue : List HostAction) : State :=
  { State.reset with encs := [{ sink := 0, pending := [] }, { sink := 0, pending := [] }], queue := queue }

/-- The record of an `ENC_ENCODE` on that encoder. -/
def encodeRecord (k : Nat) (cmd : Half) (payload : List Byte) : OperandRecord :=
  { OperandRecord.zero with target := k, cmd := cmd, bytes := payload }

/-- The words decode, nothing is pending; a frame without payload, one with, and an operation that takes no turns. -/
theorem witness_EncodeInTurnsIsEncode :
    (twoEncoders (.opInTurns (requestOf (.encEncode 0 0x1234#16 [])) ::
        (List.replicate 4 (.turn 0) ++ [.endLifetime 0]))).queue
      = .opInTurns (requestOf (.encEncode 0 0x1234#16 [])) ::
        (List.replicate (if ([] : List Byte).length = 0 then 4 else 5) (.turn 0) ++ [.endLifetime 0]) ∧
    decode 0x0020#16 (encodeRecord 0 0x1234#16 []) = .ok (.encEncode 0 0x1234#16 []) ∧
    decode 0x0020#16 (encodeRecord 1 0x0001#16 [0xBE#8]) = .ok (.encEncode 1 0x0001#16 [0xBE#8]) ∧
    decode 0x0011#16 OperandRecord.zero = .ok (.decReset 0) ∧
    ∀ k cmd payload, Instr.decReset 0 ≠ .encEncode k cmd payload :=
  ⟨rfl, rfl, rfl, rfl, by simp⟩

theorem witness_SharedSinkReceivesInterleavedFrames :
    (0 : Nat) ≠ 1 ∧ decode 0x0020#16 (encodeRecord 0 0x1234#16 []) = .ok (.encEncode 0 0x1234#16 []) ∧
    decode 0x0020#16 (encodeRecord 1 0x0000#16 []) = .ok (.encEncode 1 0x0000#16 []) ∧
    (twoEncoders []).encs[0]? = some { sink := 0, pending := [] } ∧
    (twoEncoders []).encs[1]? = some { sink := 0, pending := [] } ∧ (twoEncoders []).sinks[0]? = some Sink.empty ∧
    (∀ x ∈ Sink.empty.answers, x ≠ .never) ∧
    List.count true [true, false, true, false, true, false, true, false] ≥ (frameTransactions 0x1234#16 []).length :=
  ⟨by decide, rfl, rfl, rfl, rfl, rfl, by decide, by decide⟩

/-- R234: encoder 0 has issued its `ACQUIRE`, and encoder 1 issues its own before the header of the other. -/
theorem test_turn_interleaves :
    (nextOf (step { State.reset with
      encs := [{ sink := 0, pending := (frameTransactions 0x1234#16 []).tail },
        { sink := 0, pending := frameTransactions 0x0000#16 [] }]
      sinks := [{ log := [.acquire], answers := [] }]
      queue := [.turn 1] })).map (fun t => (t.sinks, t.encs.map (fun e => e.pending.length)))
      = some ([{ log := [.acquire, .acquire], answers := [] }], [3, 3]) := by decide

/-- A step from a state with the invariant, to a next state. -/
theorem witness_StepKeepsInvariant :
    ({ withDec (idleDec 8#32) with queue := [hostOp 0x0010#16 { OperandRecord.zero with bytes := frameF }] } : State).inv ∧
    (nextOf (step { withDec (idleDec 8#32) with
      queue := [hostOp 0x0010#16 { OperandRecord.zero with bytes := frameF }] })).isSome = true :=
  ⟨{ decoders := by simpa [withDec] using inv_of_idleDec 8#32
     cells := List.Pairwise.nil
     extents := List.Pairwise.nil
     sinks := by decide
     pending := fun e he => ⟨0x0000#16, [], by simp_all [withDec, State.reset]⟩
     chain := List.nodup_nil }, by decide⟩

/-- In `Payload` with the declared length at the capacity. -/
theorem witness_LengthStaysWithinCapacity :
    (∀ d ∈ (withDec { midFrame .payload 0#32 0xE4C5#16 0x0000#16 with buffer := some (bufA 4#32) }).decs,
      d.lengthWithinCapacity) ∧
    (nextOf (exec (.decFeed 0 [0xBE#8])
      (withDec { midFrame .payload 0#32 0xE4C5#16 0x0000#16 with buffer := some (bufA 4#32) }))).isSome = true ∧
    ∀ k v h cap, Instr.decFeed 0 [0xBE#8] ≠ .decSetBuffer k v h cap :=
  ⟨by simp [withDec, Decoder.lengthWithinCapacity, midFrame, Decoder.bufCap, bufA], by decide, by simp⟩

/-- A step that appends an event to decoder 0. -/
theorem witness_StepOnlyAppendsToOutputs :
    (nextOf (step { withDec (idleDec 8#32) with
      queue := [hostOp 0x0010#16 { OperandRecord.zero with bytes := frameF }] })).map (fun t => t.decs.map Decoder.events)
      = some [[.frame 0x0001#16 4#32 [0xBE#8, 0xEF#8, 0xCA#8, 0xFE#8]]] := by decide

theorem witness_OnlyFeedEmitsEvents :
    (nextOf (exec (.decReset 0) (withDec (midFrame .payload 2#32 0x645C#16 0x0000#16)))).isSome = true ∧
    ∀ k bytes, Instr.decReset 0 ≠ .decFeed k bytes := ⟨by decide, by simp⟩

theorem witness_NoPartialFrameEvent :
    (∀ d ∈ (withDec { idleDec 8#32 with events := [.frame 0x0001#16 1#32 [0xBE#8]] }).decs, ∀ e ∈ d.events, e.whole) ∧
    (nextOf (step (withDec { idleDec 8#32 with events := [.frame 0x0001#16 1#32 [0xBE#8]] }))).isSome = true :=
  ⟨by simp [withDec, Event.whole], by decide⟩

/-- An operation for decoder 0; decoder 1, sink 0 and host memory are others. -/
theorem witness_OtherAgentsAreUntouched :
    (nextOf (exec (.decReset 0) State.reset)).isSome = true ∧ target (.decReset 0) ≠ some (.decoder 1) ∧
    (∀ k : Nat, target (.decReset 0) ≠ some (.encoder k)) ∧ ∀ k bytes, Instr.decReset 0 ≠ .decFeed k bytes :=
  ⟨by decide, by decide, by simp [target], by simp⟩

/-- Both clauses: the last offset of the memory lent, and the first beyond it. -/
theorem witness_HostWriteChangesOneByte :
    (withQueue [.writeBuffer 0 3#32 0xBE#8]).queue = .writeBuffer 0 3#32 0xBE#8 :: [] ∧
    ({ HostMem.powerOn with extents := [(0, some 4)] } : HostMem).writeFault 0 (3#32).toNat = none ∧
    ({ HostMem.powerOn with extents := [(0, some 4)] } : HostMem).writeFault 0 (4#32).toNat
      = some .writeBeyondNamedMemory := by decide

/-- The last byte of the payload is rewritten before the last checksum byte. -/
theorem witness_HostWriteReachesTheSnapshot :
    ({ withDec (midFrame .checksumLow 4#32 0xABD9#16 0x00AB#16) with
        queue := [.writeBuffer 0 3#32 0x77#8, .op (requestOf (.decFeed 0 [0xD9#8]))] } : State).decs[0]?
      = some (midFrame .checksumLow 4#32 0xABD9#16 0x00AB#16) ∧
    BitVec.ofNat 16 ((0x00AB#16).toNat * 256 + (0xD9#8).toNat) = (midFrame .checksumLow 4#32 0xABD9#16 0x00AB#16).crc ∧
    3#32 < (midFrame .checksumLow 4#32 0xABD9#16 0x00AB#16).len ∧
    State.reset.mem.writeFault (bufA 8#32).handle (3#32).toNat = none := by decide

theorem witness_BufferLifetime :
    (withQueue [.endLifetime 0]).queue = .endLifetime 0 :: [] ∧
    (withQueue [.lend 0 4]).queue = .lend 0 4 :: [] ∧ (1 : BufHandle) ≠ 0 := by decide

end Sys2Proof.Tests
end

section
/-! The block-copy path of `DEC_FEED` cannot be observed (R7, R132): one step keeps the decoder's invariant, a block
copy is the byte steps over its block, and so the loop with or without the path is the same iteration of `DEC_STEP`. -/

namespace Sys2Proof.Machine

/-! ### `DEC_STEP` keeps the decoder's invariant (R30) -/

theorem shiftIn16_toNat_lt {r : Half} {n : Nat} (b : Byte) (hr : r.toNat < n) : (shiftIn16 r b).toNat < n * 256 := by
  have hb := b.isLt
  rw [shiftIn16_ofNat, BitVec.toNat_ofNat]
  exact Nat.lt_of_le_of_lt (Nat.mod_le _ _) (by omega)

theorem shiftIn32_toNat_lt {r : Word} {n : Nat} (b : Byte) (hr : r.toNat < n) : (shiftIn32 r b).toNat < n * 256 := by
  have hb := b.isLt
  rw [shiftIn32_ofNat, BitVec.toNat_ofNat]
  exact Nat.lt_of_le_of_lt (Nat.mod_le _ _) (by omega)

theorem fullReset_inv (d : Decoder) : (fullReset d).inv := ⟨rfl, rfl, rfl, rfl, rfl⟩

theorem raise_inv_iff (k : ErrorKind) (d : Decoder) : (raise k d).inv ↔ d.inv := Iff.rfl

section StepInv

variable {d : Decoder}

theorem stepAwaitMarker1_inv (b : Byte) (hs : d.st = .awaitMarker1) (hi : d.inv) : (stepAwaitMarker1 b d).inv := by
  simp only [Decoder.inv, hs] at hi
  unfold stepAwaitMarker1
  split
  · rename_i hb
    exact ⟨hi, by rw [hb]⟩
  · rw [raise_inv_iff]
    simp only [Decoder.inv, hs]
    exact hi

theorem stepAwaitMarker2_inv (b : Byte) (hs : d.st = .awaitMarker2) (hi : d.inv) : (stepAwaitMarker2 b d).inv := by
  simp only [Decoder.inv, hs] at hi
  obtain ⟨-, hsom⟩ := hi
  unfold stepAwaitMarker2
  split
  · rename_i hb
    refine ⟨⟨rfl, rfl, rfl, rfl, rfl⟩, ?_⟩
    subst hb
    simp only [Decoder.markersSeen, fullReset_som, hsom]
    decide
  · exact fullReset_inv _

theorem stepCommandHigh_inv (b : Byte) (hs : d.st = .commandHigh) (hi : d.inv) : (stepCommandHigh b d).inv := by
  simp only [Decoder.inv, hs] at hi
  obtain ⟨⟨hcmd, hlen, hidx, -, hrx⟩, hm⟩ := hi
  exact ⟨shiftIn16_toNat_lt (n := 1) b (by simp [hcmd]), hlen, hidx, hrx, hm⟩

theorem stepCommandLow_inv (b : Byte) (hs : d.st = .commandLow) (hi : d.inv) : (stepCommandLow b d).inv := by
  simp only [Decoder.inv, hs] at hi
  obtain ⟨-, hrest⟩ := hi
  exact hrest

theorem stepLengthByte0_inv (b : Byte) (hs : d.st = .lengthByte0) (hi : d.inv) : (stepLengthByte0 b d).inv := by
  simp only [Decoder.inv, hs] at hi
  obtain ⟨hlen, hrest⟩ := hi
  exact ⟨shiftIn32_toNat_lt (n := 1) b (by simp [hlen]), hrest⟩

theorem stepLengthByte1_inv (b : Byte) (hs : d.st = .lengthByte1) (hi : d.inv) : (stepLengthByte1 b d).inv := by
  simp only [Decoder.inv, hs] at hi
  obtain ⟨hlen, hrest⟩ := hi
  exact ⟨shiftIn32_toNat_lt b hlen, hrest⟩

theorem stepLengthByte2_inv (b : Byte) (hs : d.st = .lengthByte2) (hi : d.inv) : (stepLengthByte2 b d).inv := by
  simp only [Decoder.inv, hs] at hi
  obtain ⟨hlen, hrest⟩ := hi
  exact ⟨shiftIn32_toNat_lt b hlen, hrest⟩

/-- Where the last length byte leads to (R127), with what its two length checks have established. -/
theorem stepLengthByte3_cases (b : Byte) (d : Decoder) :
    (∃ e, stepLengthByte3 b d = fullReset e) ∨
    (stepLengthByte3 b d = { d with len := 0#32, crc := fold d.crc b, st := .checksumHigh }) ∨
    (∃ len, len ≠ 0#32 ∧ len ≤ d.bufCap ∧
      stepLengthByte3 b d = { d with len := len, crc := fold d.crc b, st := .payload }) := by
  unfold stepLengthByte3
  dsimp only
  split
  · exact .inl ⟨_, rfl⟩
  · rename_i hcap
    split
    · rename_i hzero
      exact .inr (.inl (by rw [hzero]))
    · rename_i hpos
      exact .inr (.inr ⟨_, hpos, BitVec.not_lt.1 hcap, rfl⟩)

theorem stepLengthByte3_inv (b : Byte) (hs : d.st = .lengthByte3) (hi : d.inv) : (stepLengthByte3 b d).inv := by
  simp only [Decoder.inv, hs] at hi
  obtain ⟨-, hidx, hrx, hm⟩ := hi
  obtain ⟨e, h⟩ | h | ⟨len, hpos, -, h⟩ := stepLengthByte3_cases b d <;> rw [h]
  · exact fullReset_inv e
  · exact ⟨hidx, hrx, hm⟩
  · have hlt : 0#32 < len := (BitVec.pos_iff_ne_zero len).2 hpos
    exact ⟨hlt, by simpa only [hidx] using hlt, hrx, hm⟩

theorem stepPayload_inv {a : Assignment} {b : Byte} {c c' : DecCtx} (hs : c.dec.st = .payload) (hi : c.dec.inv)
    (h : stepPayload a b c = .ok c') : c'.dec.inv := by
  simp only [Decoder.inv, hs] at hi
  obtain ⟨hpos, -, hrx, hm⟩ := hi
  obtain ⟨-, rfl⟩ | ⟨hlt, -, -, rfl⟩ := stepPayload_ok h
  · exact fullReset_inv _
  · by_cases hend : c.dec.idx + 1#32 = c.dec.len
    · simp only [if_pos hend]
      exact ⟨hend, hrx, hm⟩
    · simp only [if_neg hend]
      exact ⟨hpos, by bv_omega, hrx, hm⟩

theorem stepChecksumHigh_inv (b : Byte) (hs : d.st = .checksumHigh) (hi : d.inv) : (stepChecksumHigh b d).inv := by
  simp only [Decoder.inv, hs] at hi
  obtain ⟨hidx, hrx, hm⟩ := hi
  exact ⟨hidx, shiftIn16_toNat_lt (n := 1) b (by simp [hrx]), hm⟩

end StepInv

/-- One `DEC_STEP` keeps what R30 says of the decoder's registers. -/
theorem decStep_keeps_inv {b : Byte} {c c' : DecCtx} (hi : c.dec.inv) (h : decStep b c = .ok c') : c'.dec.inv := by
  unfold decStep at h
  split at h
  · cases h; exact hi
  · split at h
    case h_1 hs => cases h; exact stepAwaitMarker1_inv b hs hi
    case h_2 hs => cases h; exact stepAwaitMarker2_inv b hs hi
    case h_3 hs => cases h; exact stepCommandHigh_inv b hs hi
    case h_4 hs => cases h; exact stepCommandLow_inv b hs hi
    case h_5 hs => cases h; exact stepLengthByte0_inv b hs hi
    case h_6 hs => cases h; exact stepLengthByte1_inv b hs hi
    case h_7 hs => cases h; exact stepLengthByte2_inv b hs hi
    case h_8 hs => cases h; exact stepLengthByte3_inv b hs hi
    case h_9 hs => exact stepPayload_inv hs hi h
    case h_10 hs => cases h; exact stepChecksumHigh_inv b hs hi
    case h_11 => cases h; exact fullReset_inv _
    case h_12 => cases h; exact fullReset_inv _

/-! ### Byte steps and block writes in sequence, stopping at the first fault -/

theorem decSteps_cons (b : Byte) (bs : List Byte) (c : DecCtx) :
    decSteps (b :: bs) c = decStep b c >>= decSteps bs := by
  rw [decSteps]
  cases decStep b c <;> rfl

theorem decSteps_append (xs ys : List Byte) (c : DecCtx) :
    decSteps (xs ++ ys) c = decSteps xs c >>= decSteps ys := by
  induction xs generalizing c with
  | nil => rfl
  | cons b xs ih =>
    rw [List.cons_append, decSteps_cons, decSteps_cons, bind_assoc]
    exact congrArg (decStep b c >>= ·) (funext ih)

theorem decSteps_keeps_inv {bs : List Byte} {c c' : DecCtx} (hi : c.dec.inv) (h : decSteps bs c = .ok c') :
    c'.dec.inv := by
  induction bs generalizing c with
  | nil => cases h; exact hi
  | cons b bs ih =>
    rw [decSteps_cons] at h
    cases hb : decStep b c with
    | error f => rw [hb] at h; cases h
    | ok c1 => rw [hb] at h; exact ih (decStep_keeps_inv hi hb) h

theorem bufWriteBlock_cons (h : BufHandle) (i : Nat) (b : Byte) (bs : List Byte) (m : HostMem) :
    bufWriteBlock h i (b :: bs) m = bufWrite h i b m >>= bufWriteBlock h (i + 1) bs := by
  rw [bufWriteBlock]
  cases bufWrite h i b m <;> rfl

/-- Reading back a block just written gives its bytes, whatever the memory held (R51). -/
theorem readBytes_bufWriteBlock {h : BufHandle} {block : List Byte} {m m' : HostMem}
    (hw : bufWriteBlock h 0 block m = .ok m') (hl : block.length ≤ 4294967296) :
    m'.readBytes h block.length = block := by
  apply List.ext_getElem (readBytes_length _ _ _)
  intro i _ hi
  have hk := bufWriteBlock_known hw (by omega) hi
  rw [Nat.zero_add] at hk
  simpa [HostMem.readBytes] using readByte_of_known hk

/-! ### A block copy is the byte steps over its block (R131, R132) -/

/-- The parse state once `IDX` payload bytes are in the buffer (R127, R128). -/
def Decoder.payloadState (d : Decoder) : ParseState := if d.idx = d.len then .checksumHigh else .payload

/-- The decoder after it has taken the bytes `bs` as payload, with room for them (R128). -/
def Decoder.takePayload (bs : List Byte) (d : Decoder) : Decoder :=
  { d with
    crc := update d.crc bs false
    idx := d.idx + count32 bs
    st := if d.idx + count32 bs = d.len then .checksumHigh else .payload }

theorem takePayload_nil {d : Decoder} (hs : d.st = d.payloadState) : d.takePayload [] = d := by
  have hidx : d.idx + count32 [] = d.idx := BitVec.add_zero _
  unfold Decoder.payloadState at hs
  simp only [Decoder.takePayload, hidx, ← hs]
  rfl

theorem takePayload_cons (b : Byte) (bs : List Byte) (d : Decoder) :
    (d.takePayload [b]).takePayload bs = d.takePayload (b :: bs) := by
  have hidx : d.idx + count32 [b] + count32 bs = d.idx + count32 (b :: bs) := by
    rw [BitVec.add_assoc]
    simp [count32, BitVec.ofNat_add, Nat.add_comm bs.length]
  simp only [Decoder.takePayload, hidx]
  rfl

/-- A step in `Payload` below the length and the capacity is a write at `IDX`, which may fault (R128). -/
theorem stepPayload_of_room {a : Assignment} {c : DecCtx} (b : Byte) (hl : c.dec.idx < c.dec.len)
    (hc : c.dec.idx < a.cap) :
    stepPayload a b c
      = (fun m => ⟨c.dec.takePayload [b], m⟩) <$> bufWrite a.handle c.dec.idx.toNat b c.mem := by
  have hin : ¬ (c.dec.len ≤ c.dec.idx ∨ a.cap ≤ c.dec.idx) := by
    simp only [not_or, BitVec.not_le]
    exact ⟨hl, hc⟩
  rw [stepPayload, if_neg hin]
  cases bufWrite a.handle c.dec.idx.toNat b c.mem <;> rfl

/-- The byte steps over payload bytes write them at the offsets from `IDX` on, while length and capacity have room. -/
theorem decSteps_payload {a : Assignment} {bs : List Byte} {c : DecCtx} (hb : c.dec.buffer = some a)
    (hs : c.dec.st = c.dec.payloadState) (hcap : c.dec.len ≤ a.cap)
    (hroom : c.dec.idx.toNat + bs.length ≤ c.dec.len.toNat) :
    decSteps bs c
      = (fun m => ⟨c.dec.takePayload bs, m⟩) <$> bufWriteBlock a.handle c.dec.idx.toNat bs c.mem := by
  induction bs generalizing c with
  | nil => rw [takePayload_nil hs]; rfl
  | cons b bs ih =>
    rw [List.length_cons] at hroom
    have hlt : c.dec.idx < c.dec.len := BitVec.lt_def.2 (by omega)
    have hltcap : c.dec.idx < a.cap := by bv_omega
    have hpay : c.dec.st = .payload := by
      rw [hs, Decoder.payloadState, if_neg (by bv_omega)]
    have hidx : (c.dec.takePayload [b]).idx.toNat = c.dec.idx.toNat + 1 := by
      have := c.dec.len.isLt
      simp only [Decoder.takePayload, count32, List.length_singleton]
      bv_omega
    have hrest : ∀ m, decSteps bs ⟨c.dec.takePayload [b], m⟩
        = (fun m' => ⟨c.dec.takePayload (b :: bs), m'⟩) <$> bufWriteBlock a.handle (c.dec.idx.toNat + 1) bs m := by
      intro m
      rw [← takePayload_cons b bs, ← hidx]
      refine ih (c := ⟨c.dec.takePayload [b], m⟩) hb rfl hcap ?_
      change (c.dec.takePayload [b]).idx.toNat + bs.length ≤ c.dec.len.toNat
      omega
    rw [decSteps_cons, decStep_payload hb hpay, stepPayload_of_room b hlt hltcap,
      bufWriteBlock_cons, bind_map_left, map_bind]
    exact congrArg _ (funext hrest)

/-- A block copy of `LEN` bytes writes them from offset 0 on and leaves the registers of `takePayload` (R131). -/
theorem blockCopy_of_length {a : Assignment} {block : List Byte} {c : DecCtx} (hidx : c.dec.idx = 0#32)
    (hl : block.length = c.dec.len.toNat) :
    blockCopy a block c
      = (fun m => ⟨c.dec.takePayload block, m⟩) <$> bufWriteBlock a.handle c.dec.idx.toNat block c.mem := by
  have hend : c.dec.idx + count32 block = c.dec.len := by
    simp [hidx, count32, hl]
  rw [blockCopy, show c.dec.idx.toNat = 0 by simp [hidx]]
  cases hw : bufWriteBlock a.handle 0 block c.mem with
  | error f => rfl
  | ok m =>
    have hr := readBytes_bufWriteBlock hw (hl ▸ Nat.le_of_lt c.dec.len.isLt)
    simp only [Decoder.takePayload, hend, ← hl, hr]
    rfl

theorem blockCopy_eq_decSteps {a : Assignment} {block : List Byte} {c : DecCtx} (hb : c.dec.buffer = some a)
    (hs : c.dec.st = .payload) (hidx : c.dec.idx = 0#32) (hcap : c.dec.len ≤ a.cap) (hpos : 0 < block.length)
    (hl : block.length = c.dec.len.toNat) : blockCopy a block c = decSteps block c := by
  have hst : c.dec.st = c.dec.payloadState := by
    rw [hs, Decoder.payloadState, if_neg (by rw [hidx]; bv_omega)]
  rw [blockCopy_of_length hidx hl, decSteps_payload hb hst hcap (by simp [hidx, hl])]

/-- When a block copy is due, R132 applies to it: the invariant gives `IDX` = 0, the length checks of R127 the rest. -/
theorem blockReady_spec {path : Bool} {b : Byte} {rest : List Byte} {c c1 : DecCtx} {a : Assignment}
    (hi : c.dec.inv) (h : decStep b c = .ok c1) (hr : blockReady path c.dec c1.dec rest = some a) :
    c1.dec.buffer = some a ∧ c1.dec.st = .payload ∧ c1.dec.idx = 0#32 ∧ c1.dec.len ≤ a.cap ∧
      0 < c1.dec.len.toNat ∧ c1.dec.len.toNat ≤ rest.length := by
  obtain ⟨-, hs, hpay, hrest, hb1⟩ := blockReady_some hr
  have hb : c.dec.buffer = some a := (decStep_effect h).1 ▸ hb1
  simp only [Decoder.inv, hs] at hi
  obtain ⟨-, hidx, -, -⟩ := hi
  rw [decStep_lengthByte3 hb hs] at h
  cases h
  refine ⟨hb1, hpay, ?_⟩
  obtain ⟨e, h3⟩ | h3 | ⟨len, hne, hcap, h3⟩ := stepLengthByte3_cases b c.dec <;> rw [h3] at hpay hrest ⊢
  · cases hpay
  · cases hpay
  · rw [bufCap_of_some hb] at hcap
    exact ⟨hidx, hcap, by bv_omega, hrest⟩

/-! ### The loop of `DEC_FEED` is the byte steps, with or without the block-copy path -/

/-- The bytes a block copy has consumed are passed over (R52). -/
theorem feedLoop_drop (path : Bool) (n : Nat) (bs : List Byte) (c : DecCtx) :
    feedLoop path n bs c = feedLoop path 0 (bs.drop n) c := by
  induction bs generalizing n with
  | nil => simp
  | cons b bs ih =>
    cases n with
    | zero => rfl
    | succ n => rw [feedLoop_skip, List.drop_succ_cons, ih]

theorem feedLoop_error {path : Bool} {b : Byte} {c : DecCtx} {f : Fault} (bs : List Byte)
    (h : decStep b c = .error f) : feedLoop path 0 (b :: bs) c = .error f := by
  simp [feedLoop, h]

/-- With a block copy due, the loop is one step, the copy, and the bytes after the block. -/
theorem feedLoop_copy {path : Bool} {b : Byte} {bs : List Byte} {c c1 : DecCtx} {a : Assignment}
    (h : decStep b c = .ok c1) (hr : blockReady path c.dec c1.dec bs = some a) :
    feedLoop path 0 (b :: bs) c
      = blockCopy a (bs.take c1.dec.len.toNat) c1 >>= feedLoop path 0 (bs.drop c1.dec.len.toNat) := by
  simp only [feedLoop, h, hr, feedLoop_drop path c1.dec.len.toNat]
  cases blockCopy a (bs.take c1.dec.len.toNat) c1 <;> rfl

/-- R110, R132: from every state a run can reach, feeding is `DEC_STEP` for each byte in order, whichever path the
implementation takes. -/
theorem feedLoop_eq_decSteps (path : Bool) (bytes : List Byte) {c : DecCtx} (hi : c.dec.inv) :
    feedLoop path 0 bytes c = decSteps bytes c := by
  induction hn : bytes.length using Nat.strong_induction_on generalizing bytes c with
  | _ n ih =>
    cases bytes with
    | nil => rfl
    | cons b bs =>
      rw [List.length_cons] at hn
      rw [decSteps_cons]
      cases hstep : decStep b c with
      | error f => exact feedLoop_error bs hstep
      | ok c1 =>
        change _ = decSteps bs c1
        have hi1 := decStep_keeps_inv hi hstep
        cases hready : blockReady path c.dec c1.dec bs with
        | none =>
          rw [feedLoop_step hstep hready]
          exact ih bs.length (by omega) bs hi1 rfl
        | some a =>
          obtain ⟨hb, hs, hidx, hcap, hpos, hlen⟩ := blockReady_spec hi hstep hready
          have htake : (bs.take c1.dec.len.toNat).length = c1.dec.len.toNat := by simp [hlen]
          have hsplit := decSteps_append (bs.take c1.dec.len.toNat) (bs.drop c1.dec.len.toNat) c1
          rw [List.take_append_drop] at hsplit
          rw [feedLoop_copy hstep hready, blockCopy_eq_decSteps hb hs hidx hcap (by omega) htake, hsplit]
          cases hblock : decSteps (bs.take c1.dec.len.toNat) c1 with
          | error f => rfl
          | ok c2 => exact ih _ (by rw [List.length_drop]; omega) _ (decSteps_keeps_inv hi1 hblock) rfl

theorem feed_eq_decSteps (path : Bool) (bytes : List Byte) {c : DecCtx} (hi : c.dec.inv) :
    feed path bytes c = decSteps bytes c :=
  feedLoop_eq_decSteps path bytes hi

/-- Settles O33: under the invariant either path feeds exactly as `DEC_STEP` for each byte in order does. -/
theorem blockPathIsNotObservable : Obligations.BlockPathIsNotObservable := by
  intro bytes d m hi
  rw [feed_eq_decSteps true bytes hi, feed_eq_decSteps false bytes hi]

end Sys2Proof.Machine
end

section
/-! What a completed operation and a completed step can do to the state (R61, R70, R75), said once, and what of it every
byte of a `DEC_FEED` keeps. -/

namespace Sys2Proof.Machine

/-! ### Operations -/

/-- What a completed operation on decoder `k` does to that decoder and to host memory (R110, R140, R142). -/
inductive DecoderEffect (k : Nat) : Instr → DecCtx → DecCtx → Prop where
  | feed {bytes : List Byte} {c c' : DecCtx} (h : feed Config.blockPath bytes c = .ok c') :
      DecoderEffect k (.decFeed k bytes) c c'
  | reset (c : DecCtx) : DecoderEffect k (.decReset k) c { c with dec := fullReset c.dec }
  | setBuffer (v : Bool) (handle : BufHandle) (cap : Word) (c : DecCtx) :
      DecoderEffect k (.decSetBuffer k v handle cap) c { c with dec := setBuffer v handle cap c.dec }

/-- What a completed operation does to the whole state: it only leaves a result, or it changes its decoder and host
memory, or it hands a frame's transactions to its encoder's sink. -/
inductive OperationEffect (s : State) : Instr → State → Prop where
  | result {i : Instr} (v : Result) : OperationEffect s i { s with result := v }
  | decoder {i : Instr} {k : Nat} {d : Decoder} {c : DecCtx} (hd : s.decs[k]? = some d)
      (hc : DecoderEffect k i ⟨d, s.mem⟩ c) :
      OperationEffect s i { s with decs := s.decs.set k c.dec, mem := c.mem, result := .noResult }
  | encode {k : Nat} {cmd : Half} {payload : List Byte} {e : Encoder} {x x' : Sink} (he : s.encs[k]? = some e)
      (hx : s.sinks[e.sink]? = some x) (hissue : issueAll (frameTransactions cmd payload) x = some x') :
      OperationEffect s (.encEncode k cmd payload) { s with sinks := s.sinks.set e.sink x', result := .noResult }

theorem DecoderEffect.target_eq {i : Instr} {k : Nat} {c c' : DecCtx} (h : DecoderEffect k i c c') :
    target i = some (.decoder k) := by
  cases h <;> rfl

/-- All that `DEC_IS_IDLE` can do (R141). -/
theorem execDecIsIdle_next {k : Nat} {s t : State} (h : execDecIsIdle k s = .next t) :
    ∃ d, s.decs[k]? = some d ∧ t = { s with result := .idle d.idle } := by
  unfold execDecIsIdle at h
  split at h
  · cases h
  · exact ⟨_, ‹_›, by cases h; rfl⟩

theorem exec_effect {i : Instr} {s t : State} (h : exec i s = .next t) : OperationEffect s i t := by
  cases i with
  | crcUpdate r acc bytes => cases h; exact .result _
  | decFeed k bytes =>
    obtain ⟨d, c, hd, hfeed, rfl⟩ := execDecFeed_next h
    exact .decoder hd (.feed hfeed)
  | decReset k =>
    obtain ⟨d, hd, rfl⟩ := onDecoder_next h
    exact .decoder hd (.reset ⟨d, s.mem⟩)
  | decIsIdle k =>
    obtain ⟨d, -, rfl⟩ := execDecIsIdle_next h
    exact .result _
  | decSetBuffer k v handle cap =>
    obtain ⟨d, hd, rfl⟩ := onDecoder_next h
    exact .decoder hd (.setBuffer v handle cap ⟨d, s.mem⟩)
  | encEncode k cmd payload =>
    obtain ⟨-, e, x, x', he, hx, hissue, rfl⟩ := execEncEncode_next h
    exact .encode he hx hissue

/-! ### Steps -/

/-- What a completed step does to the whole state, for each act the host can have next (R61); `skip` is the step of the
idle machine and the turn of an encoder with nothing to issue, `setExtent` the begin or end of a buffer's lifetime. -/
inductive StepEffect (s : State) : State → Prop where
  | skip (rest : List HostAction) : StepEffect s { s with queue := rest }
  | op {r : Request} {i : Instr} {t : State} {rest : List HostAction} (hacc : acceptRequest s r = .ok i)
      (hi : OperationEffect (s.enter r i rest) i t) : StepEffect s t
  | beginEncode {r : Request} {k : Nat} {cmd : Half} {payload : List Byte} {e : Encoder} {rest : List HostAction}
      (hacc : acceptRequest s r = .ok (.encEncode k cmd payload)) (he : s.encs[k]? = some e) :
      StepEffect s { s.enter r (.encEncode k cmd payload) rest with
        encs := s.encs.set k { e with pending := frameTransactions cmd payload } }
  | turn {k : Nat} {e : Encoder} {tx : SinkTx} {due : List SinkTx} {x x' : Sink} {rest : List HostAction}
      (he : s.encs[k]? = some e) (hpending : e.pending = tx :: due) (hx : s.sinks[e.sink]? = some x)
      (hissue : issue tx x = some x') :
      StepEffect s { s with
        encs := s.encs.set k { e with pending := due }, sinks := s.sinks.set e.sink x'
        result := if due = [] then .noResult else s.result, queue := rest }
  | newDecoder (buffer : Option Assignment) (rest : List HostAction) :
      StepEffect s { s with decs := s.decs ++ [constructDecoder buffer], queue := rest }
  | newEncoder (rest : List HostAction) :
      StepEffect s { s with
        encs := s.encs ++ [{ sink := s.sinks.length, pending := [] }], sinks := s.sinks ++ [Sink.empty], queue := rest }
  | shareSink {n : Nat} (hn : n < s.sinks.length) (rest : List HostAction) :
      StepEffect s { s with encs := s.encs ++ [{ sink := n, pending := [] }], queue := rest }
  | writeBuffer {h : BufHandle} {i : Nat} {b : Byte} {m : HostMem} (hw : bufWrite h i b s.mem = .ok m)
      (rest : List HostAction) : StepEffect s { s with mem := m, queue := rest }
  | setExtent (h : BufHandle) (size : Option Nat) (rest : List HostAction) :
      StepEffect s { s with mem := { s.mem.forget h with extents := store h size s.mem.extents }, queue := rest }

theorem performInTurns_effect {s t : State} {r : Request} {i : Instr} {rest : List HostAction}
    (hacc : acceptRequest s r = .ok i) (h : performInTurns i (s.enter r i rest) = .next t) : StepEffect s t := by
  cases i
  case encEncode k cmd payload =>
    obtain ⟨-, e, x, he, -, rfl⟩ := beginEncode_next h
    exact .beginEncode hacc he
  all_goals exact .op hacc (exec_effect h)

theorem encoderTurn_effect {k : Nat} {s t : State} {rest : List HostAction}
    (h : encoderTurn k { s with queue := rest } = .next t) : StepEffect s t := by
  obtain ⟨e, he, ⟨-, rfl⟩ | ⟨tx, due, x, x', hpending, hx, hissue, rfl⟩⟩ := encoderTurn_next h
  · exact .skip rest
  · exact .turn he hpending hx hissue

theorem hostNewEncoder_effect {shared : Option Nat} {s t : State} {rest : List HostAction}
    (h : hostNewEncoder shared { s with queue := rest } = .next t) : StepEffect s t := by
  cases shared with
  | none => cases h; exact .newEncoder rest
  | some n =>
    simp only [hostNewEncoder] at h
    split at h
    · rename_i hn
      cases h
      exact .shareSink hn rest
    · cases h

theorem hostWriteBuffer_effect {b : BufHandle} {i : Word} {v : Byte} {s t : State} {rest : List HostAction}
    (h : hostWriteBuffer b i v { s with queue := rest } = .next t) : StepEffect s t := by
  unfold hostWriteBuffer at h
  split at h
  · cases h
  · rename_i m hw
    cases h
    exact .writeBuffer (s := s) hw rest

theorem step_effect {s t : State} (h : step s = .next t) : StepEffect s t := by
  unfold step at h
  split at h
  case h_1 => cases h; exact .skip s.queue
  case h_2 =>
    split at h
    · cases h
    · rename_i hacc
      exact .op hacc (exec_effect h)
  case h_3 =>
    split at h
    · cases h
    · rename_i hacc
      exact performInTurns_effect hacc h
  case h_4 => exact encoderTurn_effect h
  case h_5 => cases h; exact .newDecoder _ _
  case h_6 => exact hostNewEncoder_effect h
  case h_7 => exact hostWriteBuffer_effect h
  case h_8 => cases h; exact .setExtent _ _ _
  case h_9 => cases h; exact .setExtent _ _ _

/-! ### What feeding keeps -/

/-- What every byte step and every block copy keeps, a `DEC_FEED` keeps (R110). -/
theorem feedLoop_keeps {P : DecCtx → Prop} (hstep : ∀ b c c', P c → decStep b c = .ok c' → P c')
    (hcopy : ∀ a block c c', P c → blockCopy a block c = .ok c' → P c') {path : Bool} {n : Nat}
    {bytes : List Byte} {c c' : DecCtx} (hc : P c) (h : feedLoop path n bytes c = .ok c') : P c' := by
  induction bytes generalizing n c with
  | nil => rw [feedLoop_nil] at h; cases h; exact hc
  | cons b bs ih =>
    cases n with
    | succ n => exact ih hc h
    | zero =>
      simp only [feedLoop] at h
      split at h
      · cases h
      · rename_i c1 h1
        have hc1 := hstep b c c1 hc h1
        split at h
        · exact ih hc1 h
        · split at h
          · cases h
          · rename_i c2 h2
            exact ih (hcopy _ _ c1 c2 hc1 h2) h

/-- The canonical form of host memory, bytes and extents (log 5, log 6). -/
def HostMem.canonical (m : HostMem) : Prop := Memory.wf m.cells ∧ risingKeys m.extents

theorem bufWrite_canonical {h : BufHandle} {i : Nat} {b : Byte} {m m' : HostMem} (hm : m.canonical)
    (hw : bufWrite h i b m = .ok m') : m'.canonical := by
  obtain ⟨-, rfl⟩ := bufWrite_ok hw
  obtain ⟨hwf, hrising⟩ := hm
  exact ⟨store_rising _ _ hwf, hrising⟩

theorem decStep_canonical {b : Byte} {c c' : DecCtx} (hm : c.mem.canonical) (h : decStep b c = .ok c') :
    c'.mem.canonical := by
  obtain ⟨-, -, hext, hcells⟩ := decStep_effect h
  obtain ⟨hwf, hrising⟩ := hm
  refine ⟨?_, hext ▸ hrising⟩
  obtain hcells | ⟨a, -, -, -, -, -, hcells⟩ := hcells <;> rw [hcells]
  · exact hwf
  · exact store_rising _ _ hwf

theorem blockCopy_canonical {a : Assignment} {block : List Byte} {c c' : DecCtx} (hm : c.mem.canonical)
    (h : blockCopy a block c = .ok c') : c'.mem.canonical := by
  obtain ⟨m, hw, rfl⟩ := blockCopy_ok h
  obtain ⟨hwf, hrising⟩ := hm
  obtain ⟨hext, -⟩ := bufWriteBlock_extents hw
  exact ⟨bufWriteBlock_wf hw hwf, hext ▸ hrising⟩

theorem decStep_events_prefix {b : Byte} {c c' : DecCtx} (h : decStep b c = .ok c') :
    c.dec.events <+: c'.dec.events := by
  obtain ⟨-, hev | ⟨e, hev⟩, -⟩ := decStep_effect h <;> rw [hev]
  exact List.prefix_append _ _

theorem blockCopy_events {a : Assignment} {block : List Byte} {c c' : DecCtx} (h : blockCopy a block c = .ok c') :
    c'.dec.events = c.dec.events := by
  obtain ⟨m, -, rfl⟩ := blockCopy_ok h
  rfl

theorem DecoderEffect.keeps_canonical {i : Instr} {k : Nat} {c c' : DecCtx} (h : DecoderEffect k i c c')
    (hm : c.mem.canonical) : c'.mem.canonical := by
  cases h with
  | feed hf =>
    exact feedLoop_keeps (P := fun c => c.mem.canonical) (fun _ _ _ => decStep_canonical)
      (fun _ _ _ _ => blockCopy_canonical) hm hf
  | reset => exact hm
  | setBuffer => exact hm

theorem DecoderEffect.events_prefix {i : Instr} {k : Nat} {c c' : DecCtx} (h : DecoderEffect k i c c') :
    c.dec.events <+: c'.dec.events := by
  cases h with
  | feed hf =>
    exact feedLoop_keeps (P := fun c' => c.dec.events <+: c'.dec.events)
      (fun _ _ _ hp h => hp.trans (decStep_events_prefix h)) (fun _ _ _ _ hp h => blockCopy_events h ▸ hp)
      List.prefix_rfl hf
  | reset => exact List.prefix_rfl
  | setBuffer v => rw [setBuffer_events]

theorem DecoderEffect.mem_eq {i : Instr} {k : Nat} {c c' : DecCtx} (h : DecoderEffect k i c c')
    (hi : ∀ k bytes, i ≠ .decFeed k bytes) : c'.mem = c.mem := by
  cases h with
  | feed => exact absurd rfl (hi _ _)
  | reset => rfl
  | setBuffer => rfl

end Sys2Proof.Machine
end

section
/-! The invariant of the machine's state (R30, R61): it holds at reset and every step keeps it (R44). -/

namespace Sys2Proof.Machine

theorem powerOn_inv : Decoder.powerOn.inv := ⟨rfl, rfl, rfl, rfl, rfl⟩

/-- The registers of R22 stay, so `DEC_SET_BUFFER` keeps what R30 says of them (R142). -/
theorem setBuffer_inv_iff (v : Bool) (handle : BufHandle) (cap : Word) (d : Decoder) :
    (setBuffer v handle cap d).inv ↔ d.inv := by
  cases v <;> exact Iff.rfl

theorem constructDecoder_inv (buffer : Option Assignment) : (constructDecoder buffer).inv := by
  cases buffer with
  | none => exact powerOn_inv
  | some a => exact (setBuffer_inv_iff _ _ _ _).2 powerOn_inv

theorem DecoderEffect.keeps_inv {i : Instr} {k : Nat} {c c' : DecCtx} (h : DecoderEffect k i c c') (hi : c.dec.inv) :
    c'.dec.inv := by
  cases h with
  | feed hf => exact decSteps_keeps_inv hi (feed_eq_decSteps _ _ hi ▸ hf)
  | reset => exact fullReset_inv _
  | setBuffer => exact (setBuffer_inv_iff _ _ _ _).2 hi

theorem forall_mem_set {α : Type} {P : α → Prop} {l : List α} {x : α} (hl : ∀ y ∈ l, P y) (hx : P x) (k : Nat) :
    ∀ y ∈ l.set k x, P y := by
  intro y hy
  obtain hy | rfl := List.mem_or_eq_of_mem_set hy
  · exact hl y hy
  · exact hx

theorem forall_mem_concat {α : Type} {P : α → Prop} {l : List α} {x : α} (hl : ∀ y ∈ l, P y) (hx : P x) :
    ∀ y ∈ l ++ [x], P y :=
  List.forall_mem_append.2 ⟨hl, List.forall_mem_singleton.2 hx⟩

theorem State.inv.enter {s : State} {r : Request} {i : Instr} (hs : s.inv) (hacc : acceptRequest s r = .ok i)
    (rest : List HostAction) : (s.enter r i rest).inv :=
  { hs with chain := enter_chain_nodup rest hacc hs.chain }

/-- The transactions an encoder has yet to issue may become the end of any frame's (R234). -/
theorem State.inv.setPending {s : State} {k : Nat} {e : Encoder} {due : List SinkTx} (hs : s.inv)
    (he : s.encs[k]? = some e) (hdue : ∃ (cmd : Half) (payload : List Byte), due <:+ frameTransactions cmd payload) :
    { s with encs := s.encs.set k { e with pending := due } }.inv :=
  { hs with
    sinks := forall_mem_set (x := { e with pending := due }) hs.sinks (hs.sinks e (List.mem_of_getElem? he)) k
    pending := forall_mem_set hs.pending hdue k }

theorem OperationEffect.keeps_inv {i : Instr} {s t : State} (h : OperationEffect s i t) (hs : s.inv) : t.inv := by
  cases h with
  | result v => exact { hs with }
  | decoder hd hc =>
    obtain ⟨hcells, hext⟩ := hc.keeps_canonical ⟨hs.cells, hs.extents⟩
    exact { hs with
      decoders := forall_mem_set hs.decoders (hc.keeps_inv (hs.decoders _ (List.mem_of_getElem? hd))) _
      cells := hcells
      extents := hext }
  | encode => exact { hs with sinks := fun e he => by simpa using hs.sinks e he }

theorem StepEffect.keeps_inv {s t : State} (h : StepEffect s t) (hs : s.inv) : t.inv := by
  cases h with
  | skip => exact { hs with }
  | op hacc hi => exact hi.keeps_inv (hs.enter hacc _)
  | beginEncode hacc he => exact (hs.enter hacc _).setPending he ⟨_, _, List.suffix_rfl⟩
  | turn he hpending =>
    obtain ⟨cmd, payload, hsuffix⟩ := hs.pending _ (List.mem_of_getElem? he)
    rw [hpending] at hsuffix
    have hset := hs.setPending he ⟨cmd, payload, (List.suffix_cons _ _).trans hsuffix⟩
    exact { hset with sinks := by simpa using hset.sinks }
  | newDecoder buffer => exact { hs with decoders := forall_mem_concat hs.decoders (constructDecoder_inv buffer) }
  | newEncoder =>
    have hlt : ∀ e ∈ s.encs, e.sink < (s.sinks ++ [Sink.empty]).length := fun e he => by
      simpa using Nat.lt_succ_of_lt (hs.sinks e he)
    exact { hs with
      sinks := forall_mem_concat hlt (by simp)
      pending := forall_mem_concat hs.pending ⟨0#16, [], List.nil_suffix⟩ }
  | shareSink hn =>
    exact { hs with
      sinks := forall_mem_concat hs.sinks hn
      pending := forall_mem_concat hs.pending ⟨0#16, [], List.nil_suffix⟩ }
  | writeBuffer hw =>
    obtain ⟨hcells, hext⟩ := bufWrite_canonical ⟨hs.cells, hs.extents⟩ hw
    exact { hs with cells := hcells, extents := hext }
  | setExtent h size =>
    exact { hs with cells := forget_wf h hs.cells, extents := store_rising h size hs.extents }

/-- Settles O48, from what a step can do, case by case. -/
theorem stepKeepsInvariant : Obligations.StepKeepsInvariant :=
  fun _ _ hs h => (step_effect h).keeps_inv hs

/-- Settles O47: the one decoder is at power-on, the one encoder drives sink 0 and has nothing to issue. -/
theorem resetMeetsInvariant : Obligations.ResetMeetsInvariant where
  decoders := List.forall_mem_singleton.2 powerOn_inv
  cells := reset_memory_wf
  extents := .nil
  sinks := List.forall_mem_singleton.2 Nat.zero_lt_one
  pending := List.forall_mem_singleton.2 ⟨0#16, [], List.nil_suffix⟩
  chain := .nil

end Sys2Proof.Machine
end

section
/-! The declared length against the capacity (R30 (c)): only a change of the buffer can break it. -/

namespace Sys2Proof.Machine

theorem lengthWithinCapacity_of_st_ne {d : Decoder} (h : d.st ≠ .payload) : d.lengthWithinCapacity :=
  fun hp => absurd hp h

theorem fullReset_lengthWithinCapacity (d : Decoder) : (fullReset d).lengthWithinCapacity :=
  lengthWithinCapacity_of_st_ne (by simp)

theorem stepLengthByte3_lengthWithinCapacity (b : Byte) (d : Decoder) : (stepLengthByte3 b d).lengthWithinCapacity := by
  obtain ⟨e, h⟩ | h | ⟨len, -, hcap, h⟩ := stepLengthByte3_cases b d <;> rw [h]
  · exact fullReset_lengthWithinCapacity e
  · exact lengthWithinCapacity_of_st_ne (by simp)
  · exact fun _ => hcap

theorem stepPayload_lengthWithinCapacity {a : Assignment} {b : Byte} {c c' : DecCtx} (hs : c.dec.st = .payload)
    (hc : c.dec.lengthWithinCapacity) (h : stepPayload a b c = .ok c') : c'.dec.lengthWithinCapacity := by
  obtain ⟨-, rfl⟩ | ⟨-, -, -, rfl⟩ := stepPayload_ok h
  · exact fullReset_lengthWithinCapacity _
  · exact fun _ => hc hs

theorem decStep_lengthWithinCapacity {b : Byte} {c c' : DecCtx} (hc : c.dec.lengthWithinCapacity)
    (h : decStep b c = .ok c') : c'.dec.lengthWithinCapacity := by
  unfold decStep at h
  split at h
  · cases h; exact hc
  · split at h
    case h_1 hs =>
      cases h
      unfold stepAwaitMarker1
      split <;> exact lengthWithinCapacity_of_st_ne (by simp [hs])
    case h_2 =>
      cases h
      unfold stepAwaitMarker2
      split <;> exact lengthWithinCapacity_of_st_ne (by simp)
    case h_8 => cases h; exact stepLengthByte3_lengthWithinCapacity b c.dec
    case h_9 hs => exact stepPayload_lengthWithinCapacity hs hc h
    case h_11 => cases h; exact fullReset_lengthWithinCapacity _
    case h_12 => cases h; exact fullReset_lengthWithinCapacity _
    all_goals cases h; exact lengthWithinCapacity_of_st_ne nofun

theorem blockCopy_lengthWithinCapacity {a : Assignment} {block : List Byte} {c c' : DecCtx}
    (h : blockCopy a block c = .ok c') : c'.dec.lengthWithinCapacity := by
  obtain ⟨m, -, rfl⟩ := blockCopy_ok h
  exact lengthWithinCapacity_of_st_ne (by simp)

theorem DecoderEffect.keeps_lengthWithinCapacity {i : Instr} {k : Nat} {c c' : DecCtx} (h : DecoderEffect k i c c')
    (hi : ∀ k v handle cap, i ≠ .decSetBuffer k v handle cap) (hc : c.dec.lengthWithinCapacity) :
    c'.dec.lengthWithinCapacity := by
  cases h with
  | feed hf =>
    exact feedLoop_keeps (P := fun c => c.dec.lengthWithinCapacity) (fun _ _ _ => decStep_lengthWithinCapacity)
      (fun _ _ _ _ _ => blockCopy_lengthWithinCapacity) hc hf
  | reset => exact fullReset_lengthWithinCapacity _
  | setBuffer => exact absurd rfl (hi _ _ _ _)

/-- Settles O49: of the operations on a decoder, only `DEC_SET_BUFFER` changes its capacity. -/
theorem lengthStaysWithinCapacity : Obligations.LengthStaysWithinCapacity := by
  intro i s t hi hs h
  cases exec_effect h with
  | result => exact hs
  | decoder hd hc => exact forall_mem_set hs (hc.keeps_lengthWithinCapacity hi (hs _ (List.mem_of_getElem? hd))) _
  | encode => exact hs

end Sys2Proof.Machine
end

section
/-! The outputs are only appended to (R37, R38, R196). -/

namespace Sys2Proof.Machine

/-- Every member of a list of decoders or sinks keeps its place, and its output `f` is the old one with new ones
appended. -/
def OutputsGrow {α β : Type} (f : α → List β) (l l' : List α) : Prop :=
  ∀ (k : Nat) (x : α), l[k]? = some x → ∃ (x' : α) (new : List β), l'[k]? = some x' ∧ f x' = f x ++ new

section OutputsGrow

variable {α β : Type} {f : α → List β}

theorem outputsGrow_refl (l : List α) : OutputsGrow f l l :=
  fun _ x hx => ⟨x, [], hx, (List.append_nil _).symm⟩

theorem outputsGrow_append (l m : List α) : OutputsGrow f l (l ++ m) := by
  intro k x hx
  obtain ⟨hk, -⟩ := List.getElem?_eq_some_iff.1 hx
  exact ⟨x, [], by rw [List.getElem?_append_left hk, hx], (List.append_nil _).symm⟩

theorem outputsGrow_set {l : List α} {k : Nat} {x y : α} (hx : l[k]? = some x) (h : f x <+: f y) :
    OutputsGrow f l (l.set k y) := by
  intro n z hz
  by_cases hn : k = n
  · subst hn
    obtain ⟨hk, -⟩ := List.getElem?_eq_some_iff.1 hx
    obtain rfl : x = z := Option.some.inj (hx.symm.trans hz)
    obtain ⟨new, hnew⟩ := h
    exact ⟨y, new, List.getElem?_set_self hk, hnew.symm⟩
  · exact ⟨z, [], by rw [List.getElem?_set_ne hn, hz], (List.append_nil _).symm⟩

end OutputsGrow

theorem issue_log_prefix {tx : SinkTx} {x x' : Sink} (h : issue tx x = some x') : x.log <+: x'.log := by
  obtain ⟨rfl, -⟩ := issue_some h
  exact List.prefix_append _ _

theorem OperationEffect.outputsGrow {i : Instr} {s t : State} (h : OperationEffect s i t) :
    OutputsGrow Decoder.events s.decs t.decs ∧ OutputsGrow Sink.log s.sinks t.sinks := by
  cases h with
  | result => exact ⟨outputsGrow_refl _, outputsGrow_refl _⟩
  | decoder hd hc => exact ⟨outputsGrow_set hd hc.events_prefix, outputsGrow_refl _⟩
  | encode _ hx hissue =>
    exact ⟨outputsGrow_refl _, outputsGrow_set hx (issueAll_log hissue ▸ List.prefix_append _ _)⟩

/-- Settles O50: a decoder's operation appends events, an encoder's transactions; every other act of the host adds
decoders and sinks at the end at most. -/
theorem stepOnlyAppendsToOutputs : Obligations.StepOnlyAppendsToOutputs := by
  intro s t h
  change OutputsGrow Decoder.events s.decs t.decs ∧ OutputsGrow Sink.log s.sinks t.sinks
  cases step_effect h with
  | op _ hi => exact hi.outputsGrow
  | turn _ _ hx hissue => exact ⟨outputsGrow_refl _, outputsGrow_set hx (issue_log_prefix hissue)⟩
  | newDecoder => exact ⟨outputsGrow_append _ _, outputsGrow_refl _⟩
  | newEncoder => exact ⟨outputsGrow_refl _, outputsGrow_append _ _⟩
  | skip | beginEncode | shareSink | writeBuffer | setExtent => exact ⟨outputsGrow_refl _, outputsGrow_refl _⟩

/-- Settles O53: an operation's one effect is on its own decoder, or on its own encoder's sink. -/
theorem otherAgentsAreUntouched : Obligations.OtherAgentsAreUntouched := by
  intro i s t h
  cases exec_effect h with
  | result v => exact ⟨rfl, rfl, rfl, rfl, rfl, fun _ _ => rfl, fun _ _ => rfl, fun _ => rfl⟩
  | @decoder _ n d c hd hc =>
    refine ⟨rfl, rfl, rfl, List.length_set, rfl, fun k hk => ?_, fun _ _ => rfl, hc.mem_eq⟩
    have hne : n ≠ k := fun heq => hk (heq ▸ hc.target_eq)
    exact List.getElem?_set_ne hne
  | encode he =>
    refine ⟨rfl, rfl, rfl, rfl, List.length_set, fun _ _ => rfl, fun n hn => ?_, fun _ => rfl⟩
    exact List.getElem?_set_ne (hn _ _ rfl he)

end Sys2Proof.Machine
end

section
/-! The state after reset and the construction of encoders (R44, R203, R224). -/

namespace Sys2Proof.Machine

/-- Settles O10: each is a field of the reset state as it is defined. -/
theorem resetHoldsPowerOnValues : Obligations.ResetHoldsPowerOnValues :=
  ⟨rfl, rfl, rfl, rfl, rfl, rfl⟩

theorem step_newEncoder {s : State} {shared : Option Nat} {rest : List HostAction}
    (hq : s.queue = .newEncoder shared :: rest) : step s = hostNewEncoder shared { s with queue := rest } := by
  simp only [step, hq]

/-- Settles O12: with no sink named, with one that exists, and with one that does not. -/
theorem encoderIsConstructedWithItsSink : Obligations.EncoderIsConstructedWithItsSink := by
  intro s k rest
  refine ⟨fun hq => ?_, fun hq hk => ?_, fun hq hk => ?_⟩ <;> rw [step_newEncoder hq]
  · rfl
  · simp only [hostNewEncoder, if_pos hk]
  · simp only [hostNewEncoder, if_neg (Nat.not_lt.2 hk)]

end Sys2Proof.Machine
end

section
/-! An encode that meets a sink transaction which never returns (R56, I13). -/

namespace Sys2Proof.Machine

/-- Handing transactions over is stuck where the answer that one of them meets is `never` (R56, I13). -/
theorem issueAll_of_never {txs : List SinkTx} {k : Sink} {n : Nat} (hn : n < txs.length)
    (h : k.answers[n]? = some .never) : issueAll txs k = none := by
  induction txs generalizing k n with
  | nil => simp at hn
  | cons tx txs ih =>
    unfold issueAll
    cases h1 : issue tx k with
    | none => rfl
    | some k1 =>
      obtain ⟨rfl, hhead⟩ := issue_some h1
      cases n with
      | zero => exact absurd (List.head?_eq_getElem?.trans h) hhead
      | succ n => exact ih (Nat.lt_of_succ_lt_succ hn) (by rwa [List.getElem?_tail])

/-- `ENC_ENCODE` is stuck where handing its transactions over is (R170, I13). -/
theorem execEncEncode_of_stuck {k : Nat} {cmd : Half} {payload : List Byte} {s : State} {e : Encoder} {sink : Sink}
    (hok : encoderAndSink k payload s = .ok (e, sink)) (h : issueAll (frameTransactions cmd payload) sink = none) :
    execEncEncode k cmd payload s = .fault .sinkNeverReturns := by
  simp [execEncEncode, hok, h]

/-- Settles O46: the transaction is one of the frame's, and handing it over is stuck. -/
theorem encodeIsStuckWhenSinkNeverReturns : Obligations.EncodeIsStuckWhenSinkNeverReturns := by
  intro s k e sink cmd payload n hlen he hsink hn hnever
  rw [← frameTransactions_length cmd payload] at hn
  exact execEncEncode_of_stuck (encoderAndSink_of_some hlen he hsink) (issueAll_of_never hn hnever)

end Sys2Proof.Machine
end

section
/-! What the step is when the host's next act is an operation that is accepted (R61, R76, R233). -/

namespace Sys2Proof.Machine

/-- A request is accepted that spells an operation for none of the decoders and encoders it is issued within and for no
encoder with transactions to issue (R76, R233). -/
theorem acceptRequest_of_free {s : State} {r : Request} {i : Instr} (hd : decode r.word r.operands = .ok i)
    (hchain : ∀ g, target i = some g → g ∉ s.enclosing r)
    (hidle : ∀ k e, target i = some (.encoder k) → s.encs[k]? = some e → e.pending = []) :
    acceptRequest s r = .ok i := by
  have hfree : ¬ reentrant s r i = true := by
    rw [reentrant_iff]
    rintro ⟨g, hg, hmem | hbusy⟩
    · exact hchain g hg hmem
    · cases g with
      | decoder k => cases hbusy
      | encoder k =>
        obtain ⟨e, he, hpending⟩ := busy_encoder.1 hbusy
        exact hpending (hidle k e hg he)
  simp [acceptRequest, hd, hfree]

theorem step_op_of_accept {s : State} {r : Request} {rest : List HostAction} {i : Instr}
    (hq : s.queue = .op r :: rest) (hacc : acceptRequest s r = .ok i) : step s = exec i (s.enter r i rest) := by
  simp only [step, hq, hacc]

theorem decodeTableWord_some {nbits w : Nat} {i : Instr} (h : decodeTableWord nbits w = some i) :
    w < 2 ^ nbits ∧ decode (BitVec.ofNat 16 w) OperandRecord.zero = .ok i := by
  unfold decodeTableWord at h
  split at h
  · rename_i hbits
    obtain ⟨-, hw⟩ := hbits
    split at h
    · cases h
      exact ⟨hw, ‹_›⟩
    · cases h
  · cases h

/-- A table word that decodes is a request for the operation it decodes to. -/
theorem decode_ofTableWord {nbits w : Nat} {i : Instr} (h : decodeTableWord nbits w = some i) :
    decode (Request.ofTableWord nbits w).word (Request.ofTableWord nbits w).operands = .ok i := by
  obtain ⟨hw, hd⟩ := decodeTableWord_some h
  simpa only [Request.ofTableWord, Nat.mod_eq_of_lt hw] using hd

/-- Settles O7: the request is accepted, and one placed by `withFetchWord` is issued within no operation. -/
theorem stepRunsDecodedOperation : Obligations.StepRunsDecodedOperation := by
  refine ⟨fun s r rest i hq hd hchain hidle => ?_, fun s w i hd hidle => ?_⟩
  · exact step_op_of_accept hq (acceptRequest_of_free hd hchain hidle)
  · have hchain : ∀ g, target i = some g → g ∉ (s.withFetchWord 16 w).enclosing (Request.ofTableWord 16 w) :=
      fun _ _ => List.not_mem_nil
    exact step_op_of_accept rfl (acceptRequest_of_free (decode_ofTableWord hd) hchain hidle)

end Sys2Proof.Machine
end

section
/-! A word with its operand record decodes to an operation exactly when the word is that operation's own and the
operands are those the record holds (R71 to R74). What R73 and R76 say of the words follows from that. -/

namespace Sys2Proof.Machine

/-! ### An operation word is its three fields (R71) -/

/-- `W` is `{RSV, F, OPC}` (R71). -/
theorem fields_append (w : Half) : rsvField w ++ BitVec.ofBool (flagField w) ++ opcField w = w := by
  have hflag : BitVec.ofBool (flagField w) = w.extractLsb' 8 1 := by
    ext i hi
    obtain rfl : i = 0 := by omega
    simp [flagField]
  rw [hflag, rsvField, opcField, BitVec.extractLsb'_append_extractLsb'_eq_extractLsb' (by rfl),
    BitVec.extractLsb'_append_extractLsb'_eq_extractLsb' (by rfl), BitVec.extractLsb'_eq_self]

theorem word_eq_of_fields {w : Half} {f : Bool} {opc : Byte} (hrsv : rsvField w = 0#7) (hf : flagField w = f)
    (hopc : opcField w = opc) : 0#7 ++ BitVec.ofBool f ++ opc = w := by
  rw [← hrsv, ← hf, ← hopc, fields_append]

theorem eq_of_fully_masked {w m : Half} (h : w &&& 0xFFFF#16 = m) : m = w :=
  h.symm.trans BitVec.and_allOnes

/-- The mask that leaves out `F` alone fixes the two other fields (R73). -/
theorem fields_of_masked {w m : Half} (h : w &&& 0xFEFF#16 = m) :
    rsvField w = rsvField m ∧ opcField w = opcField m := by
  subst h
  simp only [rsvField, opcField, BitVec.extractLsb'_and]
  exact ⟨BitVec.and_allOnes.symm, BitVec.and_allOnes.symm⟩

/-! ### What the decoder answers (R73, R74) -/

/-- The same operation with its operands read from a record (R74). -/
def readOperands (r : OperandRecord) : Instr → Instr
  | .crcUpdate f _ _ => .crcUpdate f r.acc r.bytes
  | .decFeed _ _ => .decFeed r.target r.bytes
  | .decReset _ => .decReset r.target
  | .decIsIdle _ => .decIsIdle r.target
  | .decSetBuffer _ f _ _ => .decSetBuffer r.target f r.handle r.cap
  | .encEncode _ _ _ => .encEncode r.target r.cmd r.bytes

@[simp] theorem readOperands_encodeOperands (i : Instr) : readOperands (encodeOperands i) i = i := by
  cases i <;> rfl

theorem decodeOpcode_encodeWord (i : Instr) (r : OperandRecord) :
    decodeOpcode (encodeWord i) r = .ok (readOperands r i) := by
  cases i with
  | crcUpdate f | decSetBuffer _ f =>
    cases f <;> simp [decodeOpcode, encodeWord, rsvField, opcField, flagField, readOperands]
  | decFeed | decReset | decIsIdle | encEncode =>
    simp [decodeOpcode, encodeWord, rsvField, opcField, flagField, flagReserved, readOperands]

/-- The word of an operation whose `F` is reserved is found from the two other fields (R72). -/
theorem encodeWord_of_flagReserved {w : Half} {opc : Byte} {i j : Instr} (hrsv : rsvField w = 0#7)
    (hopc : opcField w = opc) (hi : 0#7 ++ BitVec.ofBool false ++ opc = encodeWord i)
    (h : flagReserved (flagField w) i = .ok j) : encodeWord j = w := by
  unfold flagReserved at h
  split at h
  · cases h
  · rename_i hf
    cases h
    exact hi.symm.trans (word_eq_of_fields hrsv (Bool.eq_false_of_not_eq_true hf) hopc)

theorem encodeWord_of_decodeOpcode {w : Half} {r : OperandRecord} {i : Instr} (h : decodeOpcode w r = .ok i) :
    encodeWord i = w := by
  unfold decodeOpcode at h
  split_ifs at h with hrsv hopc hopc hopc hopc hopc hopc <;> rw [not_not] at hrsv
  · cases h; exact word_eq_of_fields hrsv rfl hopc
  · exact encodeWord_of_flagReserved hrsv hopc rfl h
  · exact encodeWord_of_flagReserved hrsv hopc rfl h
  · exact encodeWord_of_flagReserved hrsv hopc rfl h
  · cases h; exact word_eq_of_fields hrsv rfl hopc
  · exact encodeWord_of_flagReserved hrsv hopc rfl h

/-- All that decoding says: the word is the operation's own, and the operands are the record's (R73, R74, R172). -/
theorem decode_ok_iff {w : Half} {r : OperandRecord} {i : Instr} :
    decode w r = .ok i ↔ i.wellFormed = true ∧ encodeWord i = w ∧ readOperands r i = i := by
  constructor
  · intro h
    obtain ⟨hwf, hi⟩ := decode_wellFormed h
    have hw := encodeWord_of_decodeOpcode hi
    rw [← hw, decodeOpcode_encodeWord, Except.ok.injEq] at hi
    exact ⟨hwf, hw, hi⟩
  · rintro ⟨hwf, rfl, hr⟩
    simp [decode, decodeOpcode_encodeWord, hr, hwf]

/-- Settles O2: an operation's own operand record holds its operands, so what decoding says determines the word. -/
theorem decodeAndEncodeAgree : Obligations.DecodeAndEncodeAgree := by
  refine ⟨fun i hwf => decode_ok_iff.2 ⟨hwf, rfl, readOperands_encodeOperands i⟩, fun w r i h => ?_⟩
  obtain ⟨hwf, hw, -⟩ := decode_ok_iff.1 h
  exact ⟨hwf, hw, decode_ok_iff.2 ⟨hwf, hw, readOperands_encodeOperands i⟩⟩

/-! ### The rows of the operation table (R73) -/

theorem wordForm (i : Instr) : Laws.WordForm.Statement i := by
  cases i with
  | crcUpdate r acc bytes => exact Laws.WordForm.crcUpdate r acc bytes
  | decFeed dec bytes => exact Laws.WordForm.decFeed dec bytes
  | decReset dec => exact Laws.WordForm.decReset dec
  | decIsIdle dec => exact Laws.WordForm.decIsIdle dec
  | decSetBuffer dec v handle cap => exact Laws.WordForm.decSetBuffer dec v handle cap
  | encEncode enc cmd payload => exact Laws.WordForm.encEncode enc cmd payload

theorem tableRow_mem (i : Instr) : tableRow i ∈ opcodeTable := by
  cases i <;> simp [tableRow, opcodeTable]

theorem encodeWord_and_mask (i : Instr) : encodeWord i &&& (tableRow i).2 = (tableRow i).1 :=
  beq_iff_eq.1 (wordForm i).2

/-- A row matches the words of the row's operation and no others (R73). -/
theorem exists_encodeWord_of_row {w : Half} {row : OpcodeRow} (hrow : row ∈ opcodeTable) (h : w &&& row.2 = row.1) :
    ∃ i, encodeWord i = w ∧ tableRow i = row := by
  simp only [opcodeTable, List.mem_cons, List.not_mem_nil, or_false] at hrow
  obtain rfl | rfl | rfl | rfl | rfl | rfl := hrow
  · obtain ⟨hrsv, hopc⟩ := fields_of_masked h
    exact ⟨.crcUpdate (flagField w) 0#16 [], word_eq_of_fields hrsv rfl hopc, rfl⟩
  · exact ⟨.decFeed 0 [], eq_of_fully_masked h, rfl⟩
  · exact ⟨.decReset 0, eq_of_fully_masked h, rfl⟩
  · exact ⟨.decIsIdle 0, eq_of_fully_masked h, rfl⟩
  · obtain ⟨hrsv, hopc⟩ := fields_of_masked h
    exact ⟨.decSetBuffer 0 (flagField w) 0 0#32, word_eq_of_fields hrsv rfl hopc, rfl⟩
  · exact ⟨.encEncode 0 0#16 [], eq_of_fully_masked h, rfl⟩

section ReadOperands

variable (r : OperandRecord) (i : Instr)

@[simp] theorem encodeWord_readOperands : encodeWord (readOperands r i) = encodeWord i := by cases i <;> rfl
@[simp] theorem tableRow_readOperands : tableRow (readOperands r i) = tableRow i := by cases i <;> rfl
@[simp] theorem readOperands_readOperands : readOperands r (readOperands r i) = readOperands r i := by cases i <;> rfl

end ReadOperands

/-- Only a payload's length can keep an operation from being expressed (R74, R172). -/
theorem readOperands_wellFormed {r : OperandRecord} {i : Instr}
    (h : tableRow i = (0x0020#16, 0xFFFF#16) → r.bytes.length < 4294967296) :
    (readOperands r i).wellFormed = true := by
  cases i with
  | encEncode => exact decide_eq_true (h rfl)
  | crcUpdate | decFeed | decReset | decIsIdle | decSetBuffer => rfl

/-- One word belongs to one row: decoding it gives one operation (R73). -/
theorem tableRow_eq_of_encodeWord_eq {i j : Instr} (h : encodeWord i = encodeWord j) : tableRow i = tableRow j := by
  have hread : readOperands OperandRecord.zero i = readOperands OperandRecord.zero j := by
    rw [← Except.ok.injEq (ε := DecodeError), ← decodeOpcode_encodeWord, ← decodeOpcode_encodeWord, h]
  simpa using congrArg tableRow hread

/-- Settles O1: a row matches the words of its operation, and an operation's word carries the operation's row. -/
theorem wordSelectsOperationByMaskAndMatch : Obligations.WordSelectsOperationByMaskAndMatch := by
  refine ⟨rfl, fun w r => ⟨fun row hrow hmatch hlen => ?_, fun i h => ?_⟩, fun w row row' hrow hrow' h h' => ?_⟩
  · obtain ⟨i, rfl, rfl⟩ := exists_encodeWord_of_row hrow hmatch
    exact ⟨readOperands r i, decode_ok_iff.2 ⟨readOperands_wellFormed hlen, by simp, by simp⟩, by simp⟩
  · obtain ⟨-, rfl, -⟩ := decode_ok_iff.1 h
    exact ⟨tableRow_mem i, encodeWord_and_mask i⟩
  · obtain ⟨i, hi, rfl⟩ := exists_encodeWord_of_row hrow h
    obtain ⟨j, hj, rfl⟩ := exists_encodeWord_of_row hrow' h'
    exact tableRow_eq_of_encodeWord_eq (hi.trans hj.symm)

/-! ### The words that spell no operation (R76) -/

/-- An operation's word is none of the words that R76 refuses. -/
theorem encodeWord_notReserved (i : Instr) :
    (encodeWord i).toNat / 512 = 0 ∧ (encodeWord i).toNat % 256 ∈ [0x01, 0x10, 0x11, 0x12, 0x13, 0x20] ∧
      ((encodeWord i).toNat / 256 % 2 = 1 → (encodeWord i).toNat % 256 ∉ [0x10, 0x11, 0x12, 0x20]) := by
  cases i with
  | crcUpdate f | decSetBuffer _ f => cases f <;> simp [encodeWord]
  | decFeed | decReset | decIsIdle | encEncode => simp [encodeWord]

section Refused

variable {s : State} {r : Request} {rest : List HostAction} {e : DecodeError}

theorem acceptRequest_of_decode_error (h : decode r.word r.operands = .error e) :
    acceptRequest s r = .error (.noOperation e) := by
  simp only [acceptRequest, h]

theorem step_op_of_decode_error (hq : s.queue = .op r :: rest) (h : decode r.word r.operands = .error e) :
    step s = .refused (.noOperation e) := by
  simp only [step, hq, acceptRequest_of_decode_error h]

theorem step_opInTurns_of_decode_error (hq : s.queue = .opInTurns r :: rest)
    (h : decode r.word r.operands = .error e) : step s = .refused (.noOperation e) := by
  simp only [step, hq, acceptRequest_of_decode_error h]

end Refused

/-- Settles O3: whatever such a word decoded to, the word would be that operation's own. -/
theorem reservedWordsAreRefused : Obligations.ReservedWordsAreRefused := by
  intro w r hw
  cases hd : decode w r with
  | ok i =>
    obtain ⟨-, rfl, -⟩ := decode_ok_iff.1 hd
    obtain ⟨hrsv, hopc, hflag⟩ := encodeWord_notReserved i
    obtain hw | hw | ⟨hf, hw⟩ := hw
    · exact absurd hrsv hw
    · exact absurd hopc hw
    · exact absurd hw (hflag hf)
  | error e =>
    exact ⟨e, rfl, fun s depth rest =>
      ⟨fun hq => step_op_of_decode_error hq hd, fun hq => step_opInTurns_of_decode_error hq hd⟩⟩

/-- Settles O4: each word is evaluated with its record. -/
theorem sampleWordsDecode : Obligations.SampleWordsDecode :=
  ⟨rfl, rfl, rfl, rfl, rfl, rfl, rfl, rfl⟩

end Sys2Proof.Machine
end

section
/-! The codes of the parse states and error kinds (R79, R83) and the textual forms (R85, R86). -/

namespace Sys2Proof.Machine

theorem code_ofCode : ∀ c : BitVec 4, (ParseState.ofCode c).code = c := by decide

theorem ofCode_code (p : ParseState) : ParseState.ofCode p.code = p := by
  cases p with
  | unused k => revert k; decide
  | awaitMarker1 | awaitMarker2 | commandHigh | commandLow | lengthByte0 | lengthByte1 | lengthByte2 | lengthByte3
  | payload | checksumHigh | checksumLow => rfl

/-- Settles O5: code and state determine each other, and the six kinds are compared with 0 and 7. -/
theorem stateAndErrorCodes : Obligations.StateAndErrorCodes := by
  refine ⟨rfl, code_ofCode, ofCode_code, rfl, fun e => ?_⟩
  cases e <;> decide

/-- Settles O6: each form is expanded; where the word has a flag, for both values of it. -/
theorem textualFormsExpand : Obligations.TextualFormsExpand := by
  refine ⟨fun _ => rfl, fun _ _ _ => rfl, fun _ => rfl, fun k r acc bytes => ?_, fun _ _ => rfl, fun _ => rfl,
    fun _ => rfl, fun k v h cap => ?_, fun _ _ _ => rfl⟩
  · cases r <;> rfl
  · cases v <;> rfl

end Sys2Proof.Machine
end

section
/-! The fold of the Checksum Engine (R100 to R103): `CRC_UPDATE` is a left fold of it, and it is linear, so what it does
to an accumulator and a byte follows from what it does to each of the three bytes alone. -/

namespace Sys2Proof.Machine

/-! ### `CRC_UPDATE` is a left fold over the bytes (R102, R103) -/

/-- Settles O14: the answer is `CRC_UPDATE`'s definition, and its word is read off for both values of `R`. -/
theorem crcUpdateReturnsFoldedAccumulator : Obligations.CrcUpdateReturnsFoldedAccumulator := by
  intro s r acc bytes
  refine ⟨rfl, ?_⟩
  cases r <;> rfl

/-- R102 of the function that `CRC_UPDATE` computes. -/
theorem update_append (acc : Half) (xs ys : List Byte) (r : Bool) :
    update acc (xs ++ ys) r = update (update acc xs r) ys false :=
  List.foldl_append

/-- Settles O15: the first call leaves the fold of `xs` as `v`, and the second goes on from there. -/
theorem crcSplitInvariance : Obligations.CrcSplitInvariance := by
  intro s t r acc v xs ys ht hv
  cases ht
  cases hv
  change execCrcUpdate false (update acc xs r) ys _ = execCrcUpdate r acc (xs ++ ys) s
  simp only [execCrcUpdate, update_append]

/-! ### Both forms of the fold are linear (R101 (d)) -/

/-- Linear over GF(2) in the accumulator and the byte together. -/
def XorLinear (f : Half → Byte → Half) : Prop :=
  ∀ (c1 c2 : Half) (b1 b2 : Byte), f (c1 ^^^ c2) (b1 ^^^ b2) = f c1 b1 ^^^ f c2 b2

theorem xor_xor_xor_comm (a b c d : Half) : (a ^^^ b) ^^^ (c ^^^ d) = (a ^^^ c) ^^^ (b ^^^ d) := by
  ac_rfl

/-- Each value the formula of R100 computes is linear in those before it. -/
theorem fold_xorLinear : XorLinear fold := by
  intro c1 c2 b1 b2
  unfold fold
  extract_lets x y x1 y1 x2 y2
  have hx : x = x1 ^^^ x2 := by
    simp only [x, x1, x2, BitVec.setWidth_xor, BitVec.ushiftRight_xor_distrib, xor_xor_xor_comm]
  have hy : y = y1 ^^^ y2 := by
    simp only [y, y1, y2, hx, BitVec.ushiftRight_xor_distrib]
    rw [xor_xor_xor_comm]
  clear_value y y1 y2
  simp only [hy, BitVec.shiftLeft_xor_distrib]
  ac_rfl

theorem polyStep_xor (c d : Half) : polyStep (c ^^^ d) = polyStep c ^^^ polyStep d := by
  have polyStep_eq (v : Half) : polyStep v = v <<< 1 ^^^ (if v.getLsbD 15 then Config.crcPoly else 0#16) := by
    unfold polyStep
    cases v.getLsbD 15 <;> simp
  rw [polyStep_eq, polyStep_eq c, polyStep_eq d, xor_xor_xor_comm, BitVec.shiftLeft_xor_distrib, BitVec.getLsbD_xor]
  cases c.getLsbD 15 <;> cases d.getLsbD 15 <;> simp

theorem foldPoly_xorLinear : XorLinear foldPoly := by
  intro c1 c2 b1 b2
  have hin : c1 ^^^ c2 ^^^ (b1 ^^^ b2).setWidth 16 <<< 8
      = (c1 ^^^ b1.setWidth 16 <<< 8) ^^^ (c2 ^^^ b2.setWidth 16 <<< 8) := by
    rw [BitVec.setWidth_xor, BitVec.shiftLeft_xor_distrib, xor_xor_xor_comm]
  simp only [foldPoly, hin, polyStep_xor]

/-! ### A 16-bit value is its two bytes (R78) -/

theorem exists_append_bytes (v : Half) : ∃ hi lo : Byte, v = hi ++ lo :=
  ⟨v.extractLsb' 8 8, v.extractLsb' 0 8, by
    rw [BitVec.extractLsb'_append_extractLsb'_eq_extractLsb' (by rfl), BitVec.extractLsb'_eq_self]⟩

theorem append_bytes_eq_xor (hi lo : Byte) : hi ++ lo = (hi ++ 0#8) ^^^ (0#8 ++ lo) := by
  rw [BitVec.xor_append]
  simp

/-! ### What the fold does to one byte alone -/

section XorLinear

variable {f g : Half → Byte → Half}

theorem XorLinear.of_bytes (hf : XorLinear f) (hi lo b : Byte) :
    f (hi ++ lo) b = f (hi ++ 0#8) 0#8 ^^^ f (0#8 ++ lo) 0#8 ^^^ f 0#16 b := by
  rw [← hf, ← append_bytes_eq_xor, ← hf]
  simp

/-- Linear functions agree where they agree on each of the three input bytes alone. -/
theorem XorLinear.eq_of_bytes (hf : XorLinear f) (hg : XorLinear g)
    (hhigh : ∀ x : Byte, f (x ++ 0#8) 0#8 = g (x ++ 0#8) 0#8) (hlow : ∀ x : Byte, f (0#8 ++ x) 0#8 = g (0#8 ++ x) 0#8)
    (hbyte : ∀ x : Byte, f 0#16 x = g 0#16 x) (c : Half) (b : Byte) : f c b = g c b := by
  obtain ⟨hi, lo, rfl⟩ := exists_append_bytes c
  rw [hf.of_bytes, hg.of_bytes, hhigh, hlow, hbyte]

theorem XorLinear.xor_eq_zero (hf : XorLinear f) {c1 c2 : Half} {b1 b2 : Byte} (h : f c1 b1 = f c2 b2) :
    f (c1 ^^^ c2) (b1 ^^^ b2) = 0#16 := by
  rw [hf, h, BitVec.xor_self]

end XorLinear

/-- Settles O16: both forms are linear, and for one byte alone they are compared on its 256 values. -/
theorem foldIsPolynomialDivision : Obligations.FoldIsPolynomialDivision :=
  fold_xorLinear.eq_of_bytes foldPoly_xorLinear (by decide) (by decide) (by decide)

theorem fold_zero : fold 0#16 0#8 = 0#16 := by decide

theorem eq_zero_of_fold_byte : ∀ b : Byte, fold 0#16 b = 0#16 → b = 0#8 := by decide

/-- The accumulator's low byte becomes the high byte of the result, whose low byte it does not enter (R100). -/
theorem fold_low_byte : ∀ lo : Byte, fold (0#8 ++ lo) 0#8 = lo ++ 0#8 := by decide

theorem eq_zero_of_fold_high_byte : ∀ hi : Byte, (fold (hi ++ 0#8) 0#8).setWidth 8 = 0#8 → hi = 0#8 := by decide

theorem eq_zero_of_fold_accumulator {c : Half} (h : fold c 0#8 = 0#16) : c = 0#16 := by
  obtain ⟨hi, lo, rfl⟩ := exists_append_bytes c
  have hparts : fold (hi ++ 0#8) 0#8 = lo ++ 0#8 := by
    rw [fold_xorLinear.of_bytes, fold_low_byte, fold_zero, BitVec.xor_zero] at h
    exact BitVec.xor_eq_zero_iff.1 h
  obtain rfl : hi = 0#8 := by
    refine eq_zero_of_fold_high_byte hi ?_
    rw [hparts, BitVec.setWidth_append_eq_right]
  obtain rfl : 0#8 = lo := by rwa [fold_low_byte, BitVec.append_left_inj] at hparts
  rfl

theorem fold_byte_injective (c : Half) : Function.Injective (fold c) := by
  intro b1 b2 h
  have hzero := fold_xorLinear.xor_eq_zero h
  rw [BitVec.xor_self] at hzero
  exact BitVec.xor_eq_zero_iff.1 (eq_zero_of_fold_byte _ hzero)

theorem fold_accumulator_injective (b : Byte) : Function.Injective (fun c : Half => fold c b) := by
  intro c1 c2 h
  have hzero := fold_xorLinear.xor_eq_zero h
  rw [BitVec.xor_self] at hzero
  exact BitVec.xor_eq_zero_iff.1 (eq_zero_of_fold_accumulator hzero)

/-- Settles O17: an injective map of the finitely many accumulators is a bijection. -/
theorem foldIsInjectiveAndLinear : Obligations.FoldIsInjectiveAndLinear :=
  ⟨fold_byte_injective, fun b => Finite.injective_iff_bijective.1 (fold_accumulator_injective b), fold_xorLinear⟩

end Sys2Proof.Machine
end

section
/-! A whole wire frame fed to an idle decoder (R104, R120 to R130): the markers, the command, the length, the payload, and
the verdict on the checksum field. From the second marker on, `DEC_FEED` is `DEC_STEP` for each byte in order. -/

namespace Sys2Proof.Machine

/-- A byte that a step takes without a fault, and then the rest. -/
theorem decSteps_cons_of_ok {b : Byte} {c c1 : DecCtx} (bs : List Byte) (h : decStep b c = .ok c1) :
    decSteps (b :: bs) c = decSteps bs c1 := by
  rw [decSteps_cons, h]
  rfl

/-- A block copy is due after the last length byte only (R131). -/
theorem blockReady_of_st_ne {path : Bool} {was now : Decoder} {rest : List Byte} (h : was.st ≠ .lengthByte3) :
    blockReady path was now rest = none := by
  cases hr : blockReady path was now rest with
  | none => rfl
  | some a =>
    obtain ⟨-, hs, -⟩ := blockReady_some hr
    exact absurd hs h

theorem count32_toNat {bytes : List Byte} (h : bytes.length < 4294967296) : (count32 bytes).toNat = bytes.length := by
  rw [count32, BitVec.toNat_ofNat]
  exact Nat.mod_eq_of_lt h

theorem count32_toNat_of_le {bytes : List Byte} {cap : Word} (h : bytes.length ≤ cap.toNat) :
    (count32 bytes).toNat = bytes.length :=
  count32_toNat (Nat.lt_of_le_of_lt h cap.isLt)

theorem count32_le {bytes : List Byte} {cap : Word} (h : bytes.length ≤ cap.toNat) : count32 bytes ≤ cap := by
  rwa [BitVec.le_def, count32_toNat_of_le h]

/-! ### What the decoder's registers hold on the way -/

/-- The decoder between the two markers (R120). -/
def Decoder.afterMarker1 (d : Decoder) : Decoder := { d with st := .awaitMarker2, som := Config.marker1 ++ 0x00#8 }

/-- The decoder once it has accepted the marker pair (R121). -/
def Decoder.afterMarkers (d : Decoder) : Decoder :=
  { fullReset d with st := .commandHigh, som := Config.marker1 ++ Config.marker2 }

/-- The decoder once it has taken a command and a length that fits its buffer (R123, R127). -/
def Decoder.afterHeader (cmd : Half) (len : Word) (d : Decoder) : Decoder :=
  { d.afterMarkers with
    st := if 0#32 = len then .checksumHigh else .payload
    cmd := cmd
    len := len
    crc := update 0x0000#16 (bytes16 cmd ++ bytes32 len) true }

/-- The decoder once it has taken the whole payload too: `CRC` is the frame checksum (R104, R128). -/
def Decoder.afterPayload (cmd : Half) (payload : List Byte) (d : Decoder) : Decoder :=
  { d.afterHeader cmd (count32 payload) with
    st := .checksumHigh
    idx := count32 payload
    crc := fcs cmd (count32 payload) payload }

/-- The event that the checksum field `x` leads to, where the payload reads as `payload` (R130). -/
def Decoder.verdict (d : Decoder) (x : Half) (payload : List Byte) : Event :=
  if x = d.crc then .frame d.cmd d.len payload else .error .checksumMismatch d.cmd d.len d.som d.bufHandle

theorem afterMarkers_inv (d : Decoder) : d.afterMarkers.inv := ⟨⟨rfl, rfl, rfl, rfl, rfl⟩, rfl⟩

section Parts

variable {d : Decoder} {a : Assignment} (hb : d.buffer = some a)
include hb

/-- Whatever the registers of an idle decoder hold, the markers clear them (R120, R121). -/
theorem feed_markers (path : Bool) (bytes : List Byte) (m : HostMem) (hs : d.st = .awaitMarker1) :
    feed path (Config.marker1 :: Config.marker2 :: bytes) ⟨d, m⟩ = decSteps bytes ⟨d.afterMarkers, m⟩ := by
  have h1 : decStep Config.marker1 ⟨d, m⟩ = .ok ⟨d.afterMarker1, m⟩ := decStep_awaitMarker1 hb hs
  have h2 : decStep Config.marker2 ⟨d.afterMarker1, m⟩ = .ok ⟨d.afterMarkers, m⟩ := by
    have hsom : d.afterMarker1.som.extractLsb' 8 8 = Config.marker1 := by
      change (Config.marker1 ++ 0x00#8).extractLsb' 8 8 = Config.marker1
      decide
    rw [decStep_awaitMarker2 (d := d.afterMarker1) hb rfl, stepAwaitMarker2, hsom]
    rfl
  rw [feed, feedLoop_step h1 (blockReady_of_st_ne (by simp [hs])),
    feedLoop_step h2 (blockReady_of_st_ne (by simp [Decoder.afterMarker1]))]
  exact feedLoop_eq_decSteps path bytes (afterMarkers_inv d)

/-- The two command bytes (R122, R123). -/
theorem decSteps_command (cmd : Half) (bytes : List Byte) (m : HostMem) (hs : d.st = .commandHigh)
    (hcmd : d.cmd = 0#16) :
    decSteps (bytes16 cmd ++ bytes) ⟨d, m⟩
      = decSteps bytes ⟨{ d with st := .lengthByte0, cmd := cmd, crc := update d.crc (bytes16 cmd) false }, m⟩ := by
  let d1 := stepCommandHigh (cmd.extractLsb' 8 8) d
  calc decSteps (bytes16 cmd ++ bytes) ⟨d, m⟩
    _ = decSteps (cmd.extractLsb' 0 8 :: bytes) ⟨d1, m⟩ := decSteps_cons_of_ok _ (decStep_commandHigh hb hs)
    _ = decSteps bytes ⟨stepCommandLow (cmd.extractLsb' 0 8) d1, m⟩ :=
      decSteps_cons_of_ok _ (decStep_commandLow (d := d1) hb rfl)
    _ = _ := by
      simp only [d1, stepCommandLow, stepCommandHigh, hcmd, shiftIn16_bytes16]
      rfl

/-- The last length byte, where the length it completes fits the buffer (R127). -/
theorem stepLengthByte3_of_fits {b : Byte} {len : Word} (hlen : shiftIn32 d.len b = len) (hcap : len ≤ a.cap) :
    stepLengthByte3 b d
      = { d with st := if 0#32 = len then .checksumHigh else .payload, len := len, crc := fold d.crc b } := by
  have hfits (e : Decoder) (he : e.buffer = some a) : ¬ e.bufCap < len := by
    rw [bufCap_of_some he]
    exact BitVec.not_lt.2 hcap
  simp only [stepLengthByte3, hlen]
  refine (if_neg (hfits _ hb)).trans ?_
  by_cases hzero : len = 0#32
  · rw [if_pos hzero, if_pos hzero.symm]
  · rw [if_neg hzero, if_neg (Ne.symm hzero)]

/-- The four bytes of a length that the buffer can hold (R124 to R127). -/
theorem decSteps_length (len : Word) (bytes : List Byte) (m : HostMem) (hs : d.st = .lengthByte0)
    (hlen : d.len = 0#32) (hcap : len ≤ a.cap) :
    decSteps (bytes32 len ++ bytes) ⟨d, m⟩
      = decSteps bytes ⟨{ d with
          st := if 0#32 = len then .checksumHigh else .payload
          len := len
          crc := update d.crc (bytes32 len) false }, m⟩ := by
  let d1 := stepLengthByte0 (len.extractLsb' 24 8) d
  let d2 := stepLengthByte1 (len.extractLsb' 16 8) d1
  let d3 := stepLengthByte2 (len.extractLsb' 8 8) d2
  have hlast : shiftIn32 d3.len (len.extractLsb' 0 8) = len := by
    simp only [d3, d2, d1, stepLengthByte2, stepLengthByte1, stepLengthByte0, hlen, shiftIn32_bytes32]
  calc decSteps (bytes32 len ++ bytes) ⟨d, m⟩
    _ = decSteps (len.extractLsb' 16 8 :: len.extractLsb' 8 8 :: len.extractLsb' 0 8 :: bytes) ⟨d1, m⟩ :=
      decSteps_cons_of_ok _ (decStep_lengthByte0 hb hs)
    _ = decSteps (len.extractLsb' 8 8 :: len.extractLsb' 0 8 :: bytes) ⟨d2, m⟩ :=
      decSteps_cons_of_ok _ (decStep_lengthByte1 (d := d1) hb rfl)
    _ = decSteps (len.extractLsb' 0 8 :: bytes) ⟨d3, m⟩ :=
      decSteps_cons_of_ok _ (decStep_lengthByte2 (d := d2) hb rfl)
    _ = decSteps bytes ⟨stepLengthByte3 (len.extractLsb' 0 8) d3, m⟩ :=
      decSteps_cons_of_ok _ (decStep_lengthByte3 (d := d3) hb rfl)
    _ = _ := by
      rw [stepLengthByte3_of_fits (d := d3) hb hlast hcap]
      rfl

/-- The two checksum bytes bring the verdict and the full reset (R129, R130). -/
theorem decSteps_checksum (x : Half) (m : HostMem) (hs : d.st = .checksumHigh) (hrx : d.rxcrc = 0#16) :
    ∃ draws, decSteps (bytes16 x) ⟨d, m⟩
      = .ok ⟨fullReset { d with events := d.events ++ [d.verdict x (m.readBytes a.handle d.len.toNat)] },
          { m with draws := draws }⟩ := by
  let d1 := stepChecksumHigh (x.extractLsb' 8 8) d
  have hsteps : decSteps (bytes16 x) ⟨d, m⟩ = .ok (stepChecksumLow a (x.extractLsb' 0 8) ⟨d1, m⟩) :=
    calc decSteps (bytes16 x) ⟨d, m⟩
      _ = decSteps [x.extractLsb' 0 8] ⟨d1, m⟩ := decSteps_cons_of_ok _ (decStep_checksumHigh hb hs)
      _ = _ := decSteps_cons_of_ok [] (decStep_checksumLow (d := d1) hb rfl)
  rw [hsteps]
  simp only [d1, stepChecksumLow, stepChecksumHigh, hrx, shiftIn16_bytes16, Decoder.verdict]
  by_cases hx : x = d.crc
  · rw [if_pos hx, if_pos hx]
    exact ⟨m.draws + 1, rfl⟩
  · rw [if_neg hx, if_neg hx]
    exact ⟨m.draws, rfl⟩

/-! ### The parts together -/

theorem decSteps_header (cmd : Half) (len : Word) (bytes : List Byte) (m : HostMem) (hcap : len ≤ a.cap) :
    decSteps (bytes16 cmd ++ (bytes32 len ++ bytes)) ⟨d.afterMarkers, m⟩
      = decSteps bytes ⟨d.afterHeader cmd len, m⟩ := by
  rw [decSteps_command (d := d.afterMarkers) hb _ _ _ rfl rfl]
  exact decSteps_length (d := { d.afterMarkers with st := .lengthByte0, cmd := cmd, crc := _ }) hb _ _ _ rfl rfl hcap

end Parts

theorem takePayload_afterHeader (cmd : Half) (payload : List Byte) (d : Decoder) :
    (d.afterHeader cmd (count32 payload)).takePayload payload = d.afterPayload cmd payload := by
  have hidx : (d.afterHeader cmd (count32 payload)).idx + count32 payload = count32 payload := BitVec.zero_add _
  have hcrc : update (d.afterHeader cmd (count32 payload)).crc payload false = fcs cmd (count32 payload) payload :=
    (update_append _ _ _ _).symm
  have hend : count32 payload = (d.afterHeader cmd (count32 payload)).len := rfl
  rw [Decoder.takePayload, hidx, hcrc, if_pos hend]
  rfl

/-- A payload that fits the buffer, from offset 0 on (R128). -/
theorem decSteps_wholePayload {d : Decoder} {a : Assignment} {payload : List Byte} {m m' : HostMem} (cmd : Half)
    (hb : d.buffer = some a) (hcap : payload.length ≤ a.cap.toNat)
    (hwrite : bufWriteBlock a.handle 0 payload m = .ok m') :
    decSteps payload ⟨d.afterHeader cmd (count32 payload), m⟩ = .ok ⟨d.afterPayload cmd payload, m'⟩ := by
  have hroom : (0#32).toNat + payload.length ≤ (count32 payload).toNat := by
    rw [count32_toNat_of_le hcap, BitVec.toNat_zero, Nat.zero_add]
  rw [decSteps_payload (c := ⟨d.afterHeader cmd (count32 payload), m⟩) hb rfl (count32_le hcap) hroom,
    takePayload_afterHeader]
  exact congrArg (_ <$> ·) hwrite

theorem wireFrame_eq (cmd : Half) (payload : List Byte) (x : Half) :
    wireFrame cmd payload x
      = Config.marker1 :: Config.marker2 ::
          (bytes16 cmd ++ (bytes32 (count32 payload) ++ (payload ++ bytes16 x))) := rfl

/-- What a wire frame leads to from an idle decoder with room for its payload: the payload is in the buffer, one event is
appended, and the decoder is reset (R104, R130). -/
theorem feed_wireFrame (path : Bool) {d : Decoder} {a : Assignment} (cmd : Half) {payload : List Byte} (x : Half)
    {m : HostMem} (hb : d.buffer = some a) (hs : d.st = .awaitMarker1) (hcap : payload.length ≤ a.cap.toNat)
    (hw : m.writable a.handle payload.length) :
    ∃ m' draws, bufWriteBlock a.handle 0 payload m = .ok m' ∧
      feed path (wireFrame cmd payload x) ⟨d, m⟩
        = .ok ⟨fullReset { d with
              som := 0x55AA#16
              events := d.events ++
                [if x = fcs cmd (count32 payload) payload then .frame cmd (count32 payload) payload
                 else .error .checksumMismatch cmd (count32 payload) 0x55AA#16 (some a.handle)] },
            { m' with draws := draws }⟩ := by
  obtain ⟨m', hwrite⟩ := bufWriteBlock_of_writable (bs := payload) (i := 0) (fun j _ hj => hw j (by omega))
  obtain ⟨draws, hcheck⟩ := decSteps_checksum (d := d.afterPayload cmd payload) hb x m' rfl rfl
  have hlen : (d.afterPayload cmd payload).len.toNat = payload.length := count32_toNat_of_le hcap
  have hread : m'.readBytes a.handle payload.length = payload :=
    readBytes_bufWriteBlock hwrite (Nat.le_of_lt (Nat.lt_of_le_of_lt hcap a.cap.isLt))
  refine ⟨m', draws, hwrite, ?_⟩
  rw [wireFrame_eq, feed_markers hb path _ m hs, decSteps_header hb _ _ _ _ (count32_le hcap), decSteps_append,
    decSteps_wholePayload cmd hb hcap hwrite]
  refine hcheck.trans ?_
  rw [hlen, hread, Decoder.verdict, bufHandle_of_some (d := d.afterPayload cmd payload) hb]
  rfl

/-- Settles O38: what a wire frame leads to, put into the state. -/
theorem frameIsAcceptedExactlyOnItsChecksum : Obligations.FrameIsAcceptedExactlyOnItsChecksum := by
  intro s k d a cmd payload x hd hb hs hcap hw
  obtain ⟨m', draws, -, hfeed⟩ := feed_wireFrame Config.blockPath cmd x hb hs hcap hw
  exact ⟨_, _, execDecFeed_of_feed hd hfeed, rfl, rfl, rfl⟩

end Sys2Proof.Machine
end

section
/-! A single changed byte of the command or the payload changes the frame checksum (R106): the accumulators differ right
after it, and every later byte keeps them apart (R101 (b), (c)). -/

namespace Sys2Proof.Machine

/-! ### One changed byte changes the fold of a sequence -/

theorem foldl_fold_injective (bytes : List Byte) : Function.Injective (fun c : Half => bytes.foldl fold c) := by
  induction bytes with
  | nil => exact Function.injective_id
  | cons b bytes ih => exact ih.comp (fold_accumulator_injective b)

theorem foldl_fold_set_ne {bytes : List Byte} {i : Nat} {b : Byte} (c : Half) (hi : i < bytes.length)
    (hne : bytes[i] ≠ b) : (bytes.set i b).foldl fold c ≠ bytes.foldl fold c := by
  induction bytes generalizing i c with
  | nil => simp at hi
  | cons x bytes ih =>
    cases i with
    | zero =>
      intro h
      exact hne (fold_byte_injective c (foldl_fold_injective bytes h)).symm
    | succ i => exact ih (fold c x) (Nat.lt_of_succ_lt_succ hi) hne

/-! ### The bytes the frame checksum covers (R104) -/

/-- The bytes at offsets 2 to 7 + L of a frame (R80, R104). -/
def coveredBytes (cmd : Half) (payload : List Byte) : List Byte :=
  bytes16 cmd ++ bytes32 (count32 payload) ++ payload

theorem fcs_eq (cmd : Half) (payload : List Byte) :
    fcs cmd (count32 payload) payload = (coveredBytes cmd payload).foldl fold Config.crcSeed := rfl

theorem coveredBytes_length (cmd : Half) (payload : List Byte) :
    (coveredBytes cmd payload).length = 6 + payload.length := by
  simp only [coveredBytes, List.length_append, bytes16_length, bytes32_length]

theorem wireFrame_eq_coveredBytes (cmd : Half) (payload : List Byte) (x : Half) :
    wireFrame cmd payload x
      = Config.marker1 :: Config.marker2 :: (coveredBytes cmd payload ++ bytes16 x) := rfl

theorem bytes16_append (hi lo : Byte) : bytes16 (hi ++ lo) = [hi, lo] := by
  rw [bytes16, BitVec.extractLsb'_append_eq_left, BitVec.extractLsb'_append_eq_right]

/-- Changing a byte of the command or of the payload gives the covered bytes of another command and payload, of the same
length. -/
theorem exists_coveredBytes_set (cmd : Half) (payload : List Byte) {i : Nat} (b : Byte)
    (hi : i = 0 ∨ i = 1 ∨ 6 ≤ i) :
    ∃ cmd' payload', payload'.length = payload.length ∧
      (coveredBytes cmd payload).set i b = coveredBytes cmd' payload' := by
  obtain ⟨high, low, rfl⟩ := exists_append_bytes cmd
  obtain rfl | rfl | h := hi
  · exact ⟨b ++ low, payload, rfl, by simp only [coveredBytes, bytes16_append]; rfl⟩
  · exact ⟨high ++ b, payload, rfl, by simp only [coveredBytes, bytes16_append]; rfl⟩
  · refine ⟨high ++ low, payload.set (i - 6) b, List.length_set, ?_⟩
    have hcount : count32 (payload.set (i - 6) b) = count32 payload := by rw [count32, List.length_set, count32]
    rw [coveredBytes, coveredBytes, hcount]
    exact List.set_append_right i b h

/-! ### The frame an encoder sends, with one byte changed -/

/-- A frame carries its frame checksum (R104, R170). -/
theorem frameBytes_eq_wireFrame (cmd : Half) (payload : List Byte) :
    frameBytes cmd payload = wireFrame cmd payload (fcs cmd (count32 payload) payload) := by
  have hcrc : encoderCrc cmd (count32 payload) payload = fcs cmd (count32 payload) payload := by
    rw [encoderCrc, ← update_append, ← update_append, ← List.append_assoc, fcs]
  cases payload with
  | nil => rw [← hcrc]; rfl
  | cons b bs => rw [← hcrc]; simp [frameBytes, frameTransactions, SinkTx.bytes, wireFrame, headerBytes]

/-- A changed byte at an offset that R106 names gives a wire frame whose checksum field is not its frame checksum. -/
theorem exists_wireFrame_of_corrupted {cmd : Half} {payload : List Byte} {i : Nat} {b : Byte}
    (hi : i = 2 ∨ i = 3 ∨ (8 ≤ i ∧ i < 8 + payload.length)) (hne : (frameBytes cmd payload)[i]? ≠ some b) :
    ∃ cmd' payload' x, payload'.length = payload.length ∧ (frameBytes cmd payload).set i b = wireFrame cmd' payload' x ∧
      x ≠ fcs cmd' (count32 payload') payload' := by
  obtain ⟨j, rfl⟩ : ∃ j, i = j + 2 := ⟨i - 2, by omega⟩
  obtain ⟨cmd', payload', hlen, hset⟩ := exists_coveredBytes_set cmd payload b (i := j) (by omega)
  have hj : j < (coveredBytes cmd payload).length := by rw [coveredBytes_length]; omega
  rw [frameBytes_eq_wireFrame, wireFrame_eq_coveredBytes] at hne ⊢
  refine ⟨cmd', payload', fcs cmd (count32 payload) payload, hlen, ?_, ?_⟩
  · rw [List.set_cons_succ, List.set_cons_succ, List.set_append_left _ _ hj, hset, wireFrame_eq_coveredBytes]
  · have hbyte : (coveredBytes cmd payload)[j] ≠ b := by
      simpa [List.getElem?_append_left hj, List.getElem?_eq_getElem hj] using hne
    rw [fcs_eq, fcs_eq, ← hset]
    exact (foldl_fold_set_ne _ hj hbyte).symm

/-- Settles O40: the changed frame is a wire frame with a wrong checksum field, on which O38 gives the verdict. -/
theorem singleCorruptedByteIsDetected : Obligations.SingleCorruptedByteIsDetected := by
  intro s k d a cmd payload i b hd hb hs hcap hw hi hne
  obtain ⟨cmd', payload', x, hlen, hframe, hx⟩ := exists_wireFrame_of_corrupted hi hne
  rw [← hlen] at hcap hw
  obtain ⟨t, d', hexec, hdecs, -, hevents⟩ :=
    frameIsAcceptedExactlyOnItsChecksum s k d a cmd' payload' x hd hb hs hcap hw
  rw [if_neg hx] at hevents
  obtain ⟨hk, -⟩ := List.getElem?_eq_some_iff.1 hd
  exact ⟨t, d', _, _, _, _, hframe ▸ hexec, by rw [hdecs, List.getElem?_set_self hk], hevents⟩

end Sys2Proof.Machine
end

section
/-! `DEC_FEED` and the state (R110): feeding one byte is one `DEC_STEP`, and under the invariant feeding any bytes is
`DEC_STEP` for each of them, so it does not matter how they are cut into chunks (R111). -/

namespace Sys2Proof.Machine

/-- What a `DEC_FEED` on decoder `k` comes to, given what it does to the decoder and host memory (R110). -/
def State.feedOutcome (s : State) (k : Nat) : Except Fault DecCtx → Host.Outcome State Fault Refusal
  | .error f => .fault f
  | .ok c => .next { s with decs := s.decs.set k c.dec, mem := c.mem, result := .noResult }

section Feed

variable {s : State} {k : Nat} {d : Decoder} (hd : s.decs[k]? = some d)
include hd

theorem exec_decFeed (bytes : List Byte) :
    exec (.decFeed k bytes) s = s.feedOutcome k (feed Config.blockPath bytes ⟨d, s.mem⟩) := by
  simp only [exec, execDecFeed, hd]
  cases feed Config.blockPath bytes ⟨d, s.mem⟩ <;> rfl

theorem exec_decFeed_of_inv (hs : s.inv) (bytes : List Byte) :
    exec (.decFeed k bytes) s = s.feedOutcome k (decSteps bytes ⟨d, s.mem⟩) := by
  rw [exec_decFeed hd, feed_eq_decSteps _ _ (hs.decoders d (List.mem_of_getElem? hd))]

end Feed

theorem exec_decFeed_noSuchAgent {s : State} {k : Nat} (hd : s.decs[k]? = none) (bytes : List Byte) :
    exec (.decFeed k bytes) s = .refused .noSuchAgent := by
  simp only [exec, execDecFeed, hd]

/-! ### Chunks (R111) -/

/-- A later `DEC_FEED` on the same decoder overwrites what an earlier one left in the state. -/
theorem feedOutcome_after (s : State) (k : Nat) (c : DecCtx) (r : Except Fault DecCtx) :
    State.feedOutcome { s with decs := s.decs.set k c.dec, mem := c.mem, result := .noResult } k r
      = s.feedOutcome k r := by
  cases r with
  | error f => rfl
  | ok c' => simp only [State.feedOutcome, List.set_set]

theorem exec_decFeed_keeps_inv {s t : State} {k : Nat} {bytes : List Byte} (hs : s.inv)
    (h : exec (.decFeed k bytes) s = .next t) : t.inv :=
  (exec_effect h).keeps_inv hs

/-- R111 for two chunks. -/
theorem exec_decFeed_append {s : State} (k : Nat) (xs ys : List Byte) (hs : s.inv) :
    exec (.decFeed k (xs ++ ys)) s = andThen (exec (.decFeed k xs) s) (exec (.decFeed k ys)) := by
  cases hd : s.decs[k]? with
  | none => simp only [exec_decFeed_noSuchAgent hd, andThen]
  | some d =>
    have hxs := exec_decFeed_of_inv hd hs xs
    rw [exec_decFeed_of_inv hd hs, decSteps_append, hxs]
    cases hc : decSteps xs ⟨d, s.mem⟩ with
    | error f => rfl
    | ok c =>
      rw [hc] at hxs
      obtain ⟨hk, -⟩ := List.getElem?_eq_some_iff.1 hd
      have hys := exec_decFeed_of_inv (List.getElem?_set_self hk) (exec_decFeed_keeps_inv hs hxs) ys
      rw [feedOutcome_after] at hys
      exact hys.symm

theorem andThen_congr {o : Host.Outcome State Fault Refusal} {f g : State → Host.Outcome State Fault Refusal}
    (h : ∀ t, o = .next t → f t = g t) : andThen o f = andThen o g := by
  cases o with
  | next t => exact h t rfl
  | fault r => rfl
  | refused r => rfl

theorem andThen_next (o : Host.Outcome State Fault Refusal) : andThen o .next = o := by
  cases o <;> rfl

/-- R111 for any chunks: the last is fed alone, and each one before it and the rest are two chunks. -/
theorem feedChunks_eq_flatten (k : Nat) (chunk : List Byte) (chunks : List (List Byte)) {s : State} (hs : s.inv) :
    feedChunks k (chunk :: chunks) s = exec (.decFeed k (chunk ++ chunks.flatten)) s := by
  induction chunks generalizing chunk s with
  | nil =>
    rw [List.flatten_nil, List.append_nil]
    exact andThen_next _
  | cons next chunks ih =>
    rw [List.flatten_cons, exec_decFeed_append k _ _ hs]
    exact andThen_congr fun t ht => ih next (exec_decFeed_keeps_inv hs ht)

/-- Settles O31: two chunks by the byte steps over each, any number by induction on the list of chunks. -/
theorem chunkInvariance : Obligations.ChunkInvariance := by
  refine ⟨fun s k xs ys hs => exec_decFeed_append k xs ys hs, fun s k chunks hs hne => ?_⟩
  obtain ⟨chunk, rest, rfl⟩ := List.exists_cons_of_ne_nil hne
  exact feedChunks_eq_flatten k chunk rest hs

/-- Settles O32: the block copy and the byte steps both write the block and leave what `takePayload` says. -/
theorem blockCopyEqualsPayloadSteps : Obligations.BlockCopyEqualsPayloadSteps :=
  fun _ _ _ hb hs hidx hcap hpos hl => blockCopy_eq_decSteps hb hs hidx hcap hpos hl

end Sys2Proof.Machine
end

section
/-! `DEC_FEED` of one byte in each parse state (R113, R120 to R133): one `DEC_STEP`, whose branches are said once and
put into the state. -/

namespace Sys2Proof.Machine

/-! ### One byte is one `DEC_STEP`, from any registers -/

/-- A block copy needs a last length byte that leads to `Payload`, so a length above zero, and bytes after it (R131). -/
theorem feed_singleton (path : Bool) (b : Byte) (c : DecCtx) : feed path [b] c = decStep b c := by
  cases h : decStep b c with
  | error f => exact feedLoop_error [] h
  | ok c1 =>
    have hr : blockReady path c.dec c1.dec [] = none := by
      cases hready : blockReady path c.dec c1.dec [] with
      | none => rfl
      | some a =>
        obtain ⟨-, hs, hpay, hlen, hb1⟩ := blockReady_some hready
        rw [decStep_lengthByte3 ((decStep_effect h).1 ▸ hb1) hs] at h
        cases h
        obtain ⟨e, h3⟩ | h3 | ⟨len, hne, -, h3⟩ := stepLengthByte3_cases b c.dec <;> rw [h3] at hpay hlen
        · cases hpay
        · cases hpay
        · exact absurd (BitVec.eq_of_toNat_eq (Nat.le_zero.1 hlen)) hne
    exact feedLoop_step h hr

theorem exec_decFeed_byte {s : State} {k : Nat} {d : Decoder} {b : Byte} {c : DecCtx} (hd : s.decs[k]? = some d)
    (h : decStep b ⟨d, s.mem⟩ = .ok c) :
    exec (.decFeed k [b]) s = .next { s with decs := s.decs.set k c.dec, mem := c.mem, result := .noResult } := by
  rw [exec_decFeed hd, feed_singleton, h]
  rfl

/-! ### The branches of the steps -/

theorem raise_of_buffer {d : Decoder} {a : Assignment} (k : ErrorKind) (hb : d.buffer = some a) :
    raise k d = { d with events := d.events ++ [.error k d.cmd d.len d.som (some a.handle)] } := by
  rw [raise, bufHandle_of_some hb]

theorem noBufferStep_eq {d : Decoder} (hb : d.buffer = none) :
    noBufferStep d = { d with events := d.events ++ [.error .noBuffer d.cmd d.len d.som none] } := by
  rw [noBufferStep, raise, Decoder.bufHandle, hb]
  rfl

section Branches

variable {b : Byte} {d : Decoder} {a : Assignment}

theorem stepAwaitMarker1_of_ne (hb : d.buffer = some a) (h : b ≠ Config.marker1) :
    stepAwaitMarker1 b d = { d with
      som := BitVec.ofNat 16 (b.toNat * 256)
      events := d.events ++ [.error .badMarker1 d.cmd d.len (BitVec.ofNat 16 (b.toNat * 256)) (some a.handle)] } := by
  have hsom : b ++ 0x00#8 = BitVec.ofNat 16 (b.toNat * 256) := by simp [append_bytes_ofNat]
  rw [← hsom]
  exact (if_neg h).trans (raise_of_buffer _ hb)

theorem stepAwaitMarker2_marker2 (d : Decoder) :
    stepAwaitMarker2 Config.marker2 d
      = { fullReset d with st := .commandHigh, som := BitVec.ofNat 16 (d.som.toNat / 256 * 256 + 0xAA) } := by
  have hsom : d.som.extractLsb' 8 8 ++ Config.marker2 = BitVec.ofNat 16 (d.som.toNat / 256 * 256 + 0xAA) :=
    replace_low_byte_ofNat d.som Config.marker2
  rw [← hsom]
  rfl

/-- The diagnostics are those before the reset (R121). -/
theorem stepAwaitMarker2_of_ne (hb : d.buffer = some a) (h : b ≠ Config.marker2) :
    stepAwaitMarker2 b d = fullReset { d with
      som := BitVec.ofNat 16 (d.som.toNat / 256 * 256 + b.toNat)
      events := d.events ++
        [.error .badMarker2 d.cmd d.len (BitVec.ofNat 16 (d.som.toNat / 256 * 256 + b.toNat)) (some a.handle)] } := by
  rw [← replace_low_byte_ofNat]
  exact (if_neg h).trans (congrArg fullReset (raise_of_buffer _ hb))

theorem stepLengthByte3_of_too_large (hb : d.buffer = some a) (h : a.cap < shiftIn32 d.len b) :
    stepLengthByte3 b d = fullReset { d with
      events := d.events ++ [.error .lengthTooLarge d.cmd (shiftIn32 d.len b) d.som (some a.handle)] } := by
  have hcap (e : Decoder) (he : e.buffer = some a) : e.bufCap < shiftIn32 d.len b := by
    rwa [bufCap_of_some he]
  have hraise := raise_of_buffer (d := { d with len := shiftIn32 d.len b, crc := fold d.crc b }) .lengthTooLarge hb
  have hreset := congrArg fullReset hraise
  exact (if_pos (hcap _ hb)).trans hreset

theorem stepPayload_of_full {m : HostMem} (hb : d.buffer = some a) (h : d.len ≤ d.idx ∨ a.cap ≤ d.idx) :
    stepPayload a b ⟨d, m⟩ = .ok ⟨fullReset { d with
      events := d.events ++ [.error .payloadOverrun d.cmd d.len d.som (some a.handle)] }, m⟩ := by
  rw [← raise_of_buffer _ hb]
  exact if_pos h

/-- One payload byte below the length, in plain arithmetic (R128). -/
theorem takePayload_singleton (h : d.idx < d.len) :
    d.takePayload [b] = { d with
      crc := fold d.crc b
      idx := BitVec.ofNat 32 (d.idx.toNat + 1)
      st := if d.idx.toNat + 1 = d.len.toNat then .checksumHigh else .payload } := by
  have hidx : d.idx + count32 [b] = BitVec.ofNat 32 (d.idx.toNat + 1) := by
    rw [BitVec.ofNat_add, BitVec.ofNat_toNat, BitVec.setWidth_eq]
    rfl
  have hend : BitVec.ofNat 32 (d.idx.toNat + 1) = d.len ↔ d.idx.toNat + 1 = d.len.toNat := by
    bv_omega
  simp only [Decoder.takePayload, hidx, hend]
  rfl

theorem stepChecksumLow_of_eq {m : HostMem} (h : shiftIn16 d.rxcrc b = d.crc) :
    stepChecksumLow a b ⟨d, m⟩
      = ⟨fullReset { d with events := d.events ++ [.frame d.cmd d.len (m.readBytes a.handle d.len.toNat)] },
          { m with draws := m.draws + 1 }⟩ := by
  simp only [stepChecksumLow, if_pos h]
  rfl

theorem stepChecksumLow_of_ne {m : HostMem} (hb : d.buffer = some a) (h : shiftIn16 d.rxcrc b ≠ d.crc) :
    stepChecksumLow a b ⟨d, m⟩ = ⟨fullReset { d with
      events := d.events ++ [.error .checksumMismatch d.cmd d.len d.som (some a.handle)] }, m⟩ := by
  rw [← raise_of_buffer _ hb]
  simp only [stepChecksumLow, if_neg h]
  rfl

end Branches

/-! ### No buffer (R113) -/

/-- Without a buffer the registers stay, so every byte raises the same error. -/
theorem feed_noBuffer (path : Bool) (bytes : List Byte) (m : HostMem) {d : Decoder} (hb : d.buffer = none) :
    feed path bytes ⟨d, m⟩
      = .ok ⟨{ d with events :=
          d.events ++ List.replicate bytes.length (.error .noBuffer d.cmd d.len d.som none) }, m⟩ := by
  induction bytes generalizing d with
  | nil => simp [feed]
  | cons b bytes ih =>
    have hready : blockReady path d (noBufferStep d) bytes = none := by
      cases hr : blockReady path d (noBufferStep d) bytes with
      | none => rfl
      | some a =>
        obtain ⟨-, -, -, -, ha⟩ := blockReady_some hr
        exact absurd (hb.symm.trans ha) (by simp)
    refine (feedLoop_step (decStep_noBuffer hb) hready).trans ((ih (d := noBufferStep d) hb).trans ?_)
    simp only [noBufferStep_eq hb, List.length_cons, List.replicate_succ, List.append_assoc, List.singleton_append]

/-- Settles O18: by induction over the bytes, put into the state. -/
theorem noBufferRaisesErrorPerByte : Obligations.NoBufferRaisesErrorPerByte := by
  intro s k d bytes hd hb
  rw [exec_decFeed hd, feed_noBuffer _ _ _ hb]
  rfl

/-! ### The bytes of a frame (R120 to R130, R133) -/

/-- Settles O23: the overrun, or one write at `IDX` and what `takePayload` says of the registers. -/
theorem payloadByte : Obligations.PayloadByte := by
  intro s k d a b hd hb hs
  refine ⟨fun hfull => ?_, fun hlen hcap hlive => ?_⟩
  · exact exec_decFeed_byte hd ((decStep_payload hb hs).trans (stepPayload_of_full hb hfull))
  · have hstep := (decStep_payload (m := s.mem) hb hs).trans (stepPayload_of_room b hlen hcap)
    rw [bufWrite_of_writable b hlive, takePayload_singleton hlen] at hstep
    exact ⟨_, exec_decFeed_byte hd hstep, rfl, known_after_write_same _ _ _ _,
      fun g j hj hne => known_after_write_other b _ d.idx.isLt hj hne⟩

theorem readBytes_getElem?_of_known {m : HostMem} {h : BufHandle} {n i : Nat} {v : Byte} (hi : i < n)
    (hk : m.known h i = some v) : (m.readBytes h n)[i]? = some v := by
  simp [HostMem.readBytes, hi, readByte_of_known hk]

/-- Settles O26: the verdict by whether the received checksum is `CRC`. -/
theorem checksumLowByte : Obligations.ChecksumLowByte := by
  intro s k d a b hd hb hs
  have hstep := decStep_checksumLow (b := b) (m := s.mem) hb hs
  rw [← shiftIn16_ofNat]
  refine ⟨fun heq => ?_, fun hne => ?_⟩
  · rw [stepChecksumLow_of_eq heq] at hstep
    exact ⟨_, s.mem.readBytes a.handle d.len.toNat, exec_decFeed_byte hd hstep, rfl, readBytes_length _ _ _,
      fun i v hi hk => readBytes_getElem?_of_known hi hk, rfl, rfl, rfl, rfl, rfl, rfl, rfl⟩
  · rw [stepChecksumLow_of_ne hb hne] at hstep
    exact exec_decFeed_byte hd hstep

/-- Settles O19: the byte is the first marker or it is not. -/
theorem awaitMarker1Byte : Obligations.AwaitMarker1Byte := by
  intro s k d a b hd hb hs
  have hstep := decStep_awaitMarker1 (b := b) (m := s.mem) hb hs
  refine ⟨fun heq => ?_, fun hne => ?_⟩
  · subst heq
    exact exec_decFeed_byte hd hstep
  · rw [stepAwaitMarker1_of_ne hb hne] at hstep
    exact exec_decFeed_byte hd hstep

/-- Settles O20: the byte is the second marker or it is not; either way it is the low byte of `SOM`. -/
theorem awaitMarker2Byte : Obligations.AwaitMarker2Byte := by
  intro s k d a b hd hb hs
  have hstep := decStep_awaitMarker2 (b := b) (m := s.mem) hb hs
  refine ⟨fun heq => ?_, fun hne => ?_⟩
  · rw [show b = Config.marker2 from heq, stepAwaitMarker2_marker2] at hstep
    exact heq ▸ exec_decFeed_byte hd hstep
  · rw [stepAwaitMarker2_of_ne hb hne] at hstep
    exact exec_decFeed_byte hd hstep

/-- Settles O21: one step for each of the five states. (The model has a `headerBytes` of its own, the encoder's.) -/
theorem Decoder.headerBytes : Obligations.HeaderBytes := by
  intro s k d a b hd hb
  rw [← shiftIn16_ofNat, ← shiftIn32_ofNat]
  exact ⟨fun hs => exec_decFeed_byte hd (decStep_commandHigh hb hs),
    fun hs => exec_decFeed_byte hd (decStep_commandLow hb hs),
    fun hs => exec_decFeed_byte hd (decStep_lengthByte0 hb hs),
    fun hs => exec_decFeed_byte hd (decStep_lengthByte1 hb hs),
    fun hs => exec_decFeed_byte hd (decStep_lengthByte2 hb hs)⟩

/-- Settles O22: the new length is too large, or it fits and is zero or not. -/
theorem lastLengthByte : Obligations.LastLengthByte := by
  intro s k d a b l hd hb hs hl
  rw [← shiftIn32_ofNat] at hl
  subst hl
  have hstep := decStep_lengthByte3 (b := b) (m := s.mem) hb hs
  refine ⟨fun hlarge => ?_, fun hzero => ?_, fun hpos hcap => ?_⟩
  · rw [stepLengthByte3_of_too_large hb hlarge] at hstep
    exact exec_decFeed_byte hd hstep
  · rw [stepLengthByte3_of_fits hb hzero (BitVec.le_def.2 (Nat.zero_le _)), if_pos rfl] at hstep
    rw [hzero]
    exact exec_decFeed_byte hd hstep
  · rw [stepLengthByte3_of_fits hb rfl hcap, if_neg (BitVec.ne_of_lt hpos)] at hstep
    exact exec_decFeed_byte hd hstep

/-- Settles O25: the step in `ChecksumHigh`, in plain arithmetic. -/
theorem checksumHighByte : Obligations.ChecksumHighByte := by
  intro s k d a b hd hb hs
  rw [← shiftIn16_ofNat]
  exact exec_decFeed_byte hd (decStep_checksumHigh hb hs)

/-- Settles O27: the step in an unused code is the full reset. -/
theorem unusedStateByte : Obligations.UnusedStateByte :=
  fun _ _ _ _ _ _ hd hb hs => exec_decFeed_byte hd (decStep_unused hb hs)

/-- Settles O42: the two rejections one after the other; no block copy can come between them. -/
theorem loneMarkerLosesTheFrameStart : Obligations.LoneMarkerLosesTheFrameStart := by
  intro s k d a hd hb hs hcmd hlen
  let rejected := fullReset { d with
    som := 0x5555#16, events := d.events ++ [.error .badMarker2 d.cmd d.len 0x5555#16 (some a.handle)] }
  let last := { rejected with
    som := 0xAA00#16, events := rejected.events ++ [Event.error .badMarker1 0x0000#16 0#32 0xAA00#16 (some a.handle)] }
  have h1 : decStep 0x55#8 ⟨d, s.mem⟩ = .ok ⟨d.afterMarker1, s.mem⟩ := decStep_awaitMarker1 hb hs
  have h2 : decStep 0x55#8 ⟨d.afterMarker1, s.mem⟩ = .ok ⟨rejected, s.mem⟩ := by
    have hsom : d.afterMarker1.som = 0x5500#16 := rfl
    rw [decStep_awaitMarker2 (d := d.afterMarker1) hb rfl, stepAwaitMarker2_of_ne (d := d.afterMarker1) hb (by decide),
      hsom]
    rfl
  have h3 : decStep 0xAA#8 ⟨rejected, s.mem⟩ = .ok ⟨last, s.mem⟩ := by
    rw [decStep_awaitMarker1 (d := rejected) hb rfl, stepAwaitMarker1_of_ne (d := rejected) hb (by decide)]
    rfl
  have hfeed : feed Config.blockPath [0x55#8, 0x55#8, 0xAA#8] ⟨d, s.mem⟩ = .ok ⟨last, s.mem⟩ := by
    rw [feed, feedLoop_step h1 (blockReady_of_st_ne (by simp [hs])),
      feedLoop_step h2 (blockReady_of_st_ne (by simp [Decoder.afterMarker1]))]
    exact (feed_singleton _ _ _).trans h3
  obtain ⟨hk, -⟩ := List.getElem?_eq_some_iff.1 hd
  refine ⟨_, last, execDecFeed_of_feed hd hfeed, List.getElem?_set_self hk, rfl, ?_⟩
  simp only [last, rejected, fullReset_events, hcmd, hlen, List.append_assoc, List.singleton_append]

/-! ### The control operations (R140 to R142) -/

/-- Settles O28: the full reset, which a second one repeats. -/
theorem decResetAbandonsPartialFrame : Obligations.DecResetAbandonsPartialFrame := by
  intro s k d hd
  obtain ⟨hk, -⟩ := List.getElem?_eq_some_iff.1 hd
  refine ⟨_, onDecoder_of_some fullReset hd, rfl, ?_, rfl⟩
  have hagain := onDecoder_of_some (s := { s with decs := s.decs.set k (fullReset d), result := .noResult }) fullReset
    (List.getElem?_set_self hk)
  simp only [List.set_set] at hagain
  exact hagain

theorem exec_decIsIdle {s : State} {k : Nat} {d : Decoder} (hd : s.decs[k]? = some d) :
    exec (.decIsIdle k) s = .next { s with result := .idle d.idle } := by
  simp only [exec, execDecIsIdle, hd]

/-- Settles O29: `IDLE` is whether `ST` is `AwaitMarker1`. -/
theorem decIsIdleReportsAwaitMarker1 : Obligations.DecIsIdleReportsAwaitMarker1 := by
  intro s k d hd
  rw [exec_decIsIdle hd, Decoder.idle]
  exact ⟨fun hs => by rw [beq_iff_eq.2 hs], fun hs => by rw [beq_eq_false_iff_ne.2 hs], rfl⟩

/-- Settles O30: `setBuffer` writes the assignment and keeps the registers of R22. -/
theorem decSetBufferWritesConfiguration : Obligations.DecSetBufferWritesConfiguration := by
  intro s k d v h cap hd
  refine ⟨_, onDecoder_of_some (setBuffer v h cap) hd, ?_⟩
  cases v <;> exact ⟨rfl, rfl, rfl, rfl, rfl, rfl, rfl, rfl, rfl, rfl, rfl, rfl⟩

end Sys2Proof.Machine
end

section
/-! A whole encoder's frame decoded again, in any chunking (R174). The statement fixes only the parse state
of the idle decoder: its accumulators may break the invariant of R30 until the marker pair clears them. -/

namespace Sys2Proof.Machine

/-! ### Feeding a decoder whose accumulators the marker pair has yet to clear (R120, R121) -/

/-- The decoder's registers are as R30 says, or they may hold anything that the marker pair clears. -/
def Decoder.feedable (d : Decoder) : Prop :=
  d.inv ∨ d.st = .awaitMarker1 ∨ (d.st = .awaitMarker2 ∧ d.som = Config.marker1 ++ 0x00#8)

theorem stepAwaitMarker1_feedable (b : Byte) {d : Decoder} (hs : d.st = .awaitMarker1) :
    (stepAwaitMarker1 b d).feedable := by
  unfold stepAwaitMarker1
  split
  · rename_i hb
    exact .inr (.inr ⟨rfl, by rw [hb]⟩)
  · exact .inr (.inl hs)

/-- Accepted or rejected, the byte clears the accumulators (R121), so it does not matter what they held. -/
theorem stepAwaitMarker2_inv_of_som (b : Byte) {d : Decoder} (hsom : d.som = Config.marker1 ++ 0x00#8) :
    (stepAwaitMarker2 b d).inv := by
  unfold stepAwaitMarker2
  split
  · rename_i hb
    have hmarkers : d.som.extractLsb' 8 8 ++ b = Config.marker1 ++ Config.marker2 := by
      rw [hsom, hb]
      decide
    exact ⟨⟨rfl, rfl, rfl, rfl, rfl⟩, hmarkers⟩
  · exact fullReset_inv _

theorem decStep_keeps_feedable {b : Byte} {c c' : DecCtx} (hf : c.dec.feedable) (h : decStep b c = .ok c') :
    c'.dec.feedable := by
  obtain ⟨d, m⟩ := c
  rcases hf with hi | hs | ⟨hs, hsom⟩
  · exact .inl (decStep_keeps_inv hi h)
  · cases hb : d.buffer with
    | none =>
      rw [decStep_noBuffer hb] at h
      cases h
      exact .inr (.inl hs)
    | some a =>
      rw [decStep_awaitMarker1 hb hs] at h
      cases h
      exact stepAwaitMarker1_feedable b hs
  · cases hb : d.buffer with
    | none =>
      rw [decStep_noBuffer hb] at h
      cases h
      exact .inr (.inr ⟨hs, hsom⟩)
    | some a =>
      rw [decStep_awaitMarker2 hb hs] at h
      cases h
      exact .inl (stepAwaitMarker2_inv_of_som b hsom)

theorem decSteps_keeps_feedable {bs : List Byte} {c c' : DecCtx} (hf : c.dec.feedable) (h : decSteps bs c = .ok c') :
    c'.dec.feedable := by
  induction bs generalizing c with
  | nil => cases h; exact hf
  | cons b bs ih =>
    unfold decSteps at h
    split at h
    · cases h
    · exact ih (decStep_keeps_feedable hf ‹_›) h

/-- No block copy is due before the marker pair, and after it the invariant holds (R110, R132). -/
theorem feed_eq_decSteps_of_feedable (path : Bool) (bytes : List Byte) {c : DecCtx} (hf : c.dec.feedable) :
    feed path bytes c = decSteps bytes c := by
  induction bytes generalizing c with
  | nil => rfl
  | cons b bs ih =>
    by_cases hi : c.dec.inv
    · exact feed_eq_decSteps path (b :: bs) hi
    · have hs : c.dec.st ≠ .lengthByte3 := by
        rcases hf with hi' | hs | ⟨hs, -⟩
        · exact absurd hi' hi
        · simp [hs]
        · simp [hs]
      rw [feed, decSteps_cons]
      cases hstep : decStep b c with
      | error f => exact feedLoop_error bs hstep
      | ok c1 =>
        rw [feedLoop_step hstep (blockReady_of_st_ne hs)]
        exact ih (decStep_keeps_feedable hf hstep)

theorem exec_decFeed_of_feedable {s : State} {k : Nat} {d : Decoder} (hd : s.decs[k]? = some d) (hf : d.feedable)
    (bytes : List Byte) : exec (.decFeed k bytes) s = s.feedOutcome k (decSteps bytes ⟨d, s.mem⟩) := by
  rw [exec_decFeed hd, feed_eq_decSteps_of_feedable _ _ hf]

/-- R111 from such a decoder: however the bytes are cut into chunks, feeding them is `DEC_STEP` for each in order. -/
theorem feedChunks_of_feedable {s : State} {k : Nat} {d : Decoder} (chunk : List Byte) (chunks : List (List Byte))
    (hd : s.decs[k]? = some d) (hf : d.feedable) :
    feedChunks k (chunk :: chunks) s = s.feedOutcome k (decSteps (chunk :: chunks).flatten ⟨d, s.mem⟩) := by
  induction chunks generalizing chunk s d with
  | nil =>
    rw [List.flatten_singleton, ← exec_decFeed_of_feedable hd hf]
    exact andThen_next _
  | cons next chunks ih =>
    rw [List.flatten_cons, decSteps_append, feedChunks, exec_decFeed_of_feedable hd hf]
    cases hc : decSteps chunk ⟨d, s.mem⟩ with
    | error f => rfl
    | ok c =>
      obtain ⟨hk, -⟩ := List.getElem?_eq_some_iff.1 hd
      have hrest := ih next (s := { s with decs := s.decs.set k c.dec, mem := c.mem, result := .noResult })
        (List.getElem?_set_self hk) (decSteps_keeps_feedable hf hc)
      rw [feedOutcome_after] at hrest
      exact hrest

/-! ### The frame in the encoder's sink (R170) -/

/-- A completed `ENC_ENCODE` appends the transactions of its frame to its encoder's sink. -/
theorem execEncEncode_log {u v : State} {j : Nat} {e : Encoder} {sink sink' : Sink} {cmd : Half} {payload : List Byte}
    (he : u.encs[j]? = some e) (hsink : u.sinks[e.sink]? = some sink) (h : execEncEncode j cmd payload u = .next v)
    (hsink' : v.sinks[e.sink]? = some sink') : sink'.log = sink.log ++ frameTransactions cmd payload := by
  obtain ⟨-, e', x, x', he', hx, hissue, rfl⟩ := execEncEncode_next h
  obtain rfl : e = e' := Option.some.inj (he.symm.trans he')
  obtain rfl : sink = x := Option.some.inj (hsink.symm.trans hx)
  obtain ⟨hn, -⟩ := List.getElem?_eq_some_iff.1 hx
  obtain rfl : x' = sink' := Option.some.inj ((List.getElem?_set_self hn).symm.trans hsink')
  exact issueAll_log hissue

/-- Settles O39: the bytes in the sink are the wire frame with its own checksum, and however they are cut into chunks,
feeding them is feeding the frame whole. -/
theorem encodeDecodeRoundTrip : Obligations.EncodeDecodeRoundTrip := by
  intro u v j e sink sink' txs cmd payload s k d a chunks he hsink hexec hsink' hlog hchunks hd hb hs hcap hw
  have htxs : txs = frameTransactions cmd payload :=
    List.append_cancel_left (hlog.symm.trans (execEncEncode_log he hsink hexec hsink'))
  have hframe : chunks.flatten = wireFrame cmd payload (fcs cmd (count32 payload) payload) := by
    rw [hchunks, htxs, ← frameBytes_eq_wireFrame, frameBytes]
  have hne : chunks ≠ [] := by
    rintro rfl
    cases hframe
  obtain ⟨chunk, rest, rfl⟩ := List.exists_cons_of_ne_nil hne
  have hf : d.feedable := .inr (.inl hs)
  obtain ⟨m', draws, hwrite, hfeed⟩ := feed_wireFrame false cmd (fcs cmd (count32 payload) payload) hb hs hcap hw
  rw [feed_eq_decSteps_of_feedable (c := ⟨d, s.mem⟩) false _ hf, if_pos rfl] at hfeed
  have hrun := feedChunks_of_feedable chunk rest hd hf
  rw [hframe, hfeed] at hrun
  obtain ⟨hk, -⟩ := List.getElem?_eq_some_iff.1 hd
  refine ⟨_, _, hrun, List.getElem?_set_self hk, rfl, rfl, fun i hi => ?_⟩
  have hfits : 0 + payload.length ≤ 4294967296 := by
    have := a.cap.isLt
    omega
  have hknown := bufWriteBlock_known hwrite hfits hi
  rwa [Nat.zero_add] at hknown

end Sys2Proof.Machine
end

section
/-! The Frame Encoder (R170 to R172): what `ENC_ENCODE` hands to its sink, whole and in turns with nothing between them
(R234). -/

namespace Sys2Proof.Machine

/-! ### The bytes of a frame as arithmetic on numbers (R78, R170) -/

theorem extractByte_eq_ofNat {w : Nat} (v : BitVec w) {i n : Nat} (h : v.toNat / 2 ^ i % 256 = n % 256) :
    v.extractLsb' i 8 = BitVec.ofNat 8 n := by
  apply BitVec.eq_of_toNat_eq
  simpa [BitVec.extractLsb'_toNat, Nat.shiftRight_eq_div_pow] using h

theorem bytes16_eq_ofNat (v : Half) : bytes16 v = [BitVec.ofNat 8 (v.toNat / 256), BitVec.ofNat 8 v.toNat] := by
  rw [bytes16, extractByte_eq_ofNat v (n := v.toNat / 256) (by omega), extractByte_eq_ofNat v (n := v.toNat) (by omega)]

theorem bytes32_ofNat (n : Nat) :
    bytes32 (BitVec.ofNat 32 n)
      = [BitVec.ofNat 8 (n / 16777216), BitVec.ofNat 8 (n / 65536), BitVec.ofNat 8 (n / 256), BitVec.ofNat 8 n] := by
  have hn : (BitVec.ofNat 32 n).toNat = n % 4294967296 := BitVec.toNat_ofNat n 32
  rw [bytes32, extractByte_eq_ofNat _ (n := n / 16777216) (by omega),
    extractByte_eq_ofNat _ (n := n / 65536) (by omega), extractByte_eq_ofNat _ (n := n / 256) (by omega),
    extractByte_eq_ofNat _ (n := n) (by omega)]

/-- Settles O44: the three calls after each other fold the bytes in one sequence (R102). -/
theorem encoderSendsFrameChecksum : Obligations.EncoderSendsFrameChecksum := by
  intro cmd n payload
  rw [encoderCrc, ← update_append, ← update_append, ← List.append_assoc, fcs]

/-- The transactions of a frame, their bytes in plain arithmetic (R170). -/
theorem frameTransactions_eq (cmd : Half) (payload : List Byte) :
    frameTransactions cmd payload
      = [.acquire,
          .write [0x55#8, 0xAA#8, BitVec.ofNat 8 (cmd.toNat / 256), BitVec.ofNat 8 cmd.toNat,
            BitVec.ofNat 8 (payload.length / 16777216), BitVec.ofNat 8 (payload.length / 65536),
            BitVec.ofNat 8 (payload.length / 256), BitVec.ofNat 8 payload.length]] ++
        (if payload.length = 0 then [] else [.write payload]) ++
        [.write [BitVec.ofNat 8 ((fcs cmd (BitVec.ofNat 32 payload.length) payload).toNat / 256),
            BitVec.ofNat 8 (fcs cmd (BitVec.ofNat 32 payload.length) payload).toNat],
          .release] := by
  rw [frameTransactions, headerBytes, encoderSendsFrameChecksum, count32, bytes16_eq_ofNat, bytes16_eq_ofNat,
    bytes32_ofNat]
  simp only [List.length_eq_zero_iff]
  rfl

/-! ### `ENC_ENCODE` whole -/

/-- What handing transactions to a sink comes to: the state `f` with the sink as it is then, or stuck (I13). -/
def sinkOutcome (f : Sink → State) : Option Sink → Host.Outcome State Fault Refusal
  | none => .fault .sinkNeverReturns
  | some x => .next (f x)

/-- The state when an `ENC_ENCODE` on sink `n` is complete and has left that sink as `x` (R170). -/
def State.encoded (s : State) (n : Nat) (x : Sink) : State := { s with sinks := s.sinks.set n x, result := .noResult }

theorem exec_encEncode {s : State} {k : Nat} {cmd : Half} {payload : List Byte} {e : Encoder} {x : Sink}
    (hok : encoderAndSink k payload s = .ok (e, x)) :
    exec (.encEncode k cmd payload) s
      = sinkOutcome (s.encoded e.sink) (issueAll (frameTransactions cmd payload) x) := by
  simp only [exec, execEncEncode, hok]
  cases issueAll (frameTransactions cmd payload) x <;> rfl

theorem exec_encEncode_of_error {s : State} {k : Nat} {cmd : Half} {payload : List Byte} {r : Refusal}
    (herr : encoderAndSink k payload s = .error r) : exec (.encEncode k cmd payload) s = .refused r := by
  simp only [exec, execEncEncode, herr]

/-- Settles O43: the answers that the frame's transactions meet are returns, so all of them are handed over. -/
theorem encodeIssuesFrameTransactions : Obligations.EncodeIssuesFrameTransactions := by
  intro s k e sink cmd payload hlen he hsink hret
  rw [← frameTransactions_length cmd payload] at hret ⊢
  refine ⟨_, ?_, rfl, rfl⟩
  rw [exec_encEncode (encoderAndSink_of_some hlen he hsink), issueAll_of_returns hret, List.append_assoc,
    List.append_assoc, ← List.append_assoc _ _ [_, _], ← frameTransactions_eq]
  rfl

/-- Settles O45: no count `N` expresses such a payload, whichever encoder it is for (R74). -/
theorem tooLongPayloadIsRefused : Obligations.TooLongPayloadIsRefused := by
  intro s k cmd payload hlong
  have hnot : ¬ payload.length < 4294967296 := Nat.not_lt.2 hlong
  refine ⟨exec_encEncode_of_error (if_neg hnot), fun r hr => ?_⟩
  have hop : decodeOpcode 0x0020#16 r = .ok (.encEncode r.target r.cmd r.bytes) :=
    decodeOpcode_encodeWord (.encEncode 0 0#16 []) r
  simp only [decode, hop, Instr.wellFormed, hr, hnot, decide_false, Bool.false_eq_true, if_false]

/-! ### `ENC_ENCODE` in turns (R234; log 10) -/

/-- The state while encoder `k`, which is `e`, has the transactions `due` to issue to its sink, which is now `x`, and
the host's next acts are the turns for them, then `rest`. -/
def State.inTurns (s : State) (k : Nat) (e : Encoder) (rest : List HostAction) (due : List SinkTx) (x : Sink) : State :=
  { s with
    encs := s.encs.set k { e with pending := due }
    sinks := s.sinks.set e.sink x
    queue := List.replicate due.length (.turn k) ++ rest
    result := if due = [] then .noResult else s.result }

theorem set_of_getElem? {α : Type} {l : List α} {n : Nat} {x : α} (h : l[n]? = some x) : l.set n x = l := by
  obtain ⟨hn, rfl⟩ := List.getElem?_eq_some_iff.1 h
  exact List.set_getElem_self hn

section Turns

variable {s : State} {k : Nat} {e : Encoder} {x : Sink} (he : s.encs[k]? = some e)
include he

/-- With nothing due any more, the encode is complete (R36). -/
theorem inTurns_nil (hidle : e.pending = []) (y : Sink) : s.inTurns k e s.queue [] y = s.encoded e.sink y := by
  have hself : s.encs.set k { e with pending := [] } = s.encs := by
    rw [← hidle]
    exact set_of_getElem? he
  simp only [State.inTurns, hself]
  rfl

variable (hx : s.sinks[e.sink]? = some x)
include hx

/-- One turn issues the next transaction. -/
theorem step_inTurns (rest : List HostAction) (tx : SinkTx) (due : List SinkTx) (y : Sink) :
    step (s.inTurns k e rest (tx :: due) y) = sinkOutcome (s.inTurns k e rest due) (issue tx y) := by
  obtain ⟨hk, -⟩ := List.getElem?_eq_some_iff.1 he
  obtain ⟨hn, -⟩ := List.getElem?_eq_some_iff.1 hx
  simp only [step, State.inTurns, List.length_cons, List.replicate_succ, List.cons_append, encoderTurn,
    List.getElem?_set_self hk, List.getElem?_set_self hn]
  cases issue tx y with
  | none => rfl
  | some y' => simp [sinkOutcome, State.inTurns]

/-- The turns for all that is due hand it over in order, as `ENC_ENCODE` whole does. -/
theorem runSteps_inTurns (rest : List HostAction) (due : List SinkTx) (y : Sink) :
    runSteps due.length (s.inTurns k e rest due y) = sinkOutcome (s.inTurns k e rest []) (issueAll due y) := by
  induction due generalizing y with
  | nil => rfl
  | cons tx due ih =>
    rw [List.length_cons, runSteps, step_inTurns he hx, issueAll]
    cases issue tx y with
    | none => rfl
    | some y' => exact ih y'

end Turns

/-- Beginning an encode, and the turns that follow, is the encode. -/
theorem beginEncode_andThen_runSteps {s : State} {k : Nat} (cmd : Half) (payload : List Byte)
    (hidle : ∀ e, s.encs[k]? = some e → e.pending = []) :
    andThen
        (beginEncode k cmd payload
          { s with queue := List.replicate (frameTransactions cmd payload).length (.turn k) ++ s.queue })
        (runSteps (frameTransactions cmd payload).length)
      = exec (.encEncode k cmd payload) s := by
  have hfind : encoderAndSink k payload
      { s with queue := List.replicate (frameTransactions cmd payload).length (.turn k) ++ s.queue }
        = encoderAndSink k payload s := rfl
  rw [beginEncode, hfind]
  cases hp : encoderAndSink k payload s with
  | error r => exact (exec_encEncode_of_error hp).symm
  | ok p =>
    obtain ⟨e, x⟩ := p
    obtain ⟨-, he, hx⟩ := encoderAndSink_ok hp
    have hbegun : s.inTurns k e s.queue (frameTransactions cmd payload) x
        = { s with
            encs := s.encs.set k { e with pending := frameTransactions cmd payload }
            queue := List.replicate (frameTransactions cmd payload).length (.turn k) ++ s.queue } := by
      simp only [State.inTurns, set_of_getElem? hx]
      rfl
    have hdone : s.inTurns k e s.queue [] = s.encoded e.sink := funext (inTurns_nil he (hidle e he))
    rw [exec_encEncode hp, ← hdone, ← runSteps_inTurns he hx, hbegun]
    rfl

/-- An operation that is accepted finds no encode in turns in progress on its encoder (R233). -/
theorem pending_eq_nil_of_accept {s : State} {r : Request} {k : Nat} {cmd : Half} {payload : List Byte} {e : Encoder}
    (hacc : acceptRequest s r = .ok (.encEncode k cmd payload)) (he : s.encs[k]? = some e) : e.pending = [] := by
  have hbusy : s.busy (.encoder k) = false := ((acceptRequest_ok hacc).2 _ rfl).2
  by_contra hp
  rw [busy_encoder.2 ⟨e, he, hp⟩] at hbusy
  cases hbusy

theorem performInTurns_of_ne_encEncode {i : Instr} (h : ∀ k cmd payload, i ≠ .encEncode k cmd payload) (s : State) :
    performInTurns i s = exec i s := by
  cases i with
  | encEncode k cmd payload => exact absurd rfl (h k cmd payload)
  | crcUpdate | decFeed | decReset | decIsIdle | decSetBuffer => rfl

/-- Whether a request is accepted does not depend on what the host does later; one that is not is refused, whole or in
turns. -/
theorem step_opInTurns_eq {s : State} {r : Request} {turns rest : List HostAction} {n : Nat}
    (hq : s.queue = .opInTurns r :: (turns ++ rest))
    (h : ∀ i, acceptRequest s r = .ok i →
      andThen (performInTurns i (s.enter r i (turns ++ rest))) (runSteps n) = exec i (s.enter r i rest)) :
    runSteps (n + 1) s = step { s with queue := .op r :: rest } := by
  have haccept : acceptRequest { s with queue := .op r :: rest } r = acceptRequest s r := rfl
  simp only [runSteps, step, hq, haccept]
  cases hacc : acceptRequest s r with
  | error e => rfl
  | ok i => exact h i hacc

/-- Settles O58: an encode by its turns, any other operation by what `performInTurns` says of it. -/
theorem encodeInTurnsIsEncode : Obligations.EncodeInTurnsIsEncode := by
  refine ⟨fun s r rest k cmd payload hq hd => ?_, fun s r rest i hq hd hne => ?_⟩
  · rw [← frameTransactions_length cmd payload] at hq ⊢
    rw [Nat.add_comm]
    refine step_opInTurns_eq hq fun i hacc => ?_
    obtain rfl : Instr.encEncode k cmd payload = i := Except.ok.inj (hd.symm.trans (acceptRequest_ok hacc).1)
    exact beginEncode_andThen_runSteps (s := s.enter r _ rest) cmd payload fun e he => pending_eq_nil_of_accept hacc he
  · rw [← andThen_next (step s)]
    refine step_opInTurns_eq (turns := []) (n := 0) hq fun j hacc => ?_
    obtain rfl : i = j := Except.ok.inj (hd.symm.trans (acceptRequest_ok hacc).1)
    rw [performInTurns_of_ne_encEncode hne]
    exact andThen_next _

end Sys2Proof.Machine
end

section
/-! What every `DEC_FEED` leaves unchanged, and that it completes where the assigned buffer's memory holds its capacity
(R206, R207). No invariant is needed: the length checks of R127 alone bound a block copy. -/

namespace Sys2Proof.Machine

/-- The host's duty of R231: the memory of the assigned buffer holds its capacity. -/
def DecCtx.bufferWritable (c : DecCtx) : Prop := ∀ a, c.dec.buffer = some a → c.mem.writable a.handle a.cap.toNat

/-- What feeding keeps of a decoder and host memory: the assignment, the records there are, the extents, and every byte
outside the assigned buffer below its capacity (R110, R206). -/
structure FeedFrame (c c' : DecCtx) : Prop where
  buffer  : c'.dec.buffer = c.dec.buffer
  events  : c.dec.events <+: c'.dec.events
  extents : c'.mem.extents = c.mem.extents
  known   : ∀ (g : BufHandle) (j : Nat), j < 4294967296 →
    (∀ a, c.dec.buffer = some a → ¬ (g = a.handle ∧ j < a.cap.toNat)) → c'.mem.known g j = c.mem.known g j

theorem FeedFrame.refl (c : DecCtx) : FeedFrame c c := ⟨rfl, List.prefix_rfl, rfl, fun _ _ _ _ => rfl⟩

theorem FeedFrame.trans {c c1 c2 : DecCtx} (h : FeedFrame c c1) (h' : FeedFrame c1 c2) : FeedFrame c c2 where
  buffer := h'.buffer.trans h.buffer
  events := h.events.trans h'.events
  extents := h'.extents.trans h.extents
  known g j hj hout := (h'.known g j hj (h.buffer ▸ hout)).trans (h.known g j hj hout)

theorem FeedFrame.keeps_bufferWritable {c c' : DecCtx} (h : FeedFrame c c') (hw : c.bufferWritable) :
    c'.bufferWritable := by
  intro a ha i hi
  rw [HostMem.writeFault, h.extents]
  exact hw a (h.buffer ▸ ha) i hi

/-- One step writes at most one byte, below the capacity (R128). -/
theorem decStep_frame {b : Byte} {c c' : DecCtx} (h : decStep b c = .ok c') : FeedFrame c c' := by
  obtain ⟨hbuf, -, hext, hcells⟩ := decStep_effect h
  refine ⟨hbuf, decStep_events_prefix h, hext, fun g j hj hout => ?_⟩
  obtain hsame | ⟨a, ha, -, -, hcap, -, hstore⟩ := hcells
  · rw [HostMem.known, hsame, HostMem.known]
  · rw [HostMem.known, hstore]
    refine known_after_write_other b c.mem c.dec.idx.isLt hj ?_
    rintro ⟨hg, rfl⟩
    exact hout a ha ⟨hg, BitVec.lt_def.1 hcap⟩

/-- A block copy writes from offset 0 on, so a block that fits the capacity stays below it (R131). -/
theorem blockCopy_frame {a : Assignment} {block : List Byte} {c c' : DecCtx} (hb : c.dec.buffer = some a)
    (hfits : block.length ≤ a.cap.toNat) (h : blockCopy a block c = .ok c') : FeedFrame c c' := by
  obtain ⟨m, hw, rfl⟩ := blockCopy_ok h
  have hcap := a.cap.isLt
  refine ⟨rfl, List.prefix_rfl, (bufWriteBlock_extents hw).1, fun g j hj hout => ?_⟩
  refine bufWriteBlock_known_other hw (by omega) hj ?_
  rintro ⟨hg, -, hlt⟩
  exact hout a hb ⟨hg, by omega⟩

/-- When a block copy is due, its block fits the assigned buffer (R127, R131). -/
theorem blockReady_fits {path : Bool} {b : Byte} {rest : List Byte} {c c1 : DecCtx} {a : Assignment}
    (h : decStep b c = .ok c1) (hr : blockReady path c.dec c1.dec rest = some a) :
    c1.dec.buffer = some a ∧ (rest.take c1.dec.len.toNat).length ≤ a.cap.toNat := by
  obtain ⟨-, hs, hpay, -, hb1⟩ := blockReady_some hr
  have hb : c.dec.buffer = some a := (decStep_effect h).1 ▸ hb1
  refine ⟨hb1, (List.length_take_le _ _).trans ?_⟩
  have hlen : c1.dec.lengthWithinCapacity := by
    rw [decStep_lengthByte3 hb hs] at h
    cases h
    exact stepLengthByte3_lengthWithinCapacity _ _
  have hle := hlen hpay
  rwa [bufCap_of_some hb1] at hle

theorem feedLoop_frame {path : Bool} {n : Nat} {bytes : List Byte} {c c' : DecCtx}
    (h : feedLoop path n bytes c = .ok c') : FeedFrame c c' := by
  induction bytes generalizing n c with
  | nil => rw [feedLoop_nil] at h; cases h; exact .refl _
  | cons b bs ih =>
    cases n with
    | succ n => exact ih h
    | zero =>
      simp only [feedLoop] at h
      split at h
      · cases h
      · rename_i c1 hstep
        have hframe := decStep_frame hstep
        split at h
        · exact hframe.trans (ih h)
        · rename_i a hready
          obtain ⟨hb, hfits⟩ := blockReady_fits hstep hready
          split at h
          · cases h
          · rename_i c2 hcopy
            exact (hframe.trans (blockCopy_frame hb hfits hcopy)).trans (ih h)

theorem blockCopy_of_writable {a : Assignment} {block : List Byte} {c : DecCtx} (hb : c.dec.buffer = some a)
    (hfits : block.length ≤ a.cap.toNat) (hw : c.bufferWritable) : ∃ c', blockCopy a block c = .ok c' := by
  obtain ⟨m, hm⟩ := bufWriteBlock_of_writable (h := a.handle) (bs := block) (i := 0) (m := c.mem)
    (fun j _ hj => hw a hb j (by omega))
  rw [blockCopy, hm]
  exact ⟨_, rfl⟩

/-- R207: the loop consumes its whole operand. -/
theorem feedLoop_completes (path : Bool) (n : Nat) (bytes : List Byte) {c : DecCtx} (hw : c.bufferWritable) :
    ∃ c', feedLoop path n bytes c = .ok c' := by
  induction bytes generalizing n c with
  | nil => exact ⟨c, feedLoop_nil path n c⟩
  | cons b bs ih =>
    cases n with
    | succ n => exact ih n hw
    | zero =>
      obtain ⟨c1, hstep⟩ := decStep_of_writable b hw
      have hw1 := (decStep_frame hstep).keeps_bufferWritable hw
      cases hready : blockReady path c.dec c1.dec bs with
      | none =>
        rw [feedLoop_step hstep hready]
        exact ih 0 hw1
      | some a =>
        obtain ⟨hb, hfits⟩ := blockReady_fits hstep hready
        obtain ⟨c2, hcopy⟩ := blockCopy_of_writable hb hfits hw1
        have hrest := ih c1.dec.len.toNat ((blockCopy_frame hb hfits hcopy).keeps_bufferWritable hw1)
        rw [feedLoop_drop] at hrest
        rw [feedLoop_copy hstep hready, hcopy]
        exact hrest

/-- Settles O34: the loop completes, and what it keeps is put into the state. -/
theorem feedCompletes : Obligations.FeedCompletes := by
  intro s k d bytes hd hw
  obtain ⟨c, hfeed⟩ := feedLoop_completes Config.blockPath 0 bytes (c := ⟨d, s.mem⟩) hw
  have hframe := feedLoop_frame hfeed
  obtain ⟨new, hnew⟩ := hframe.events
  exact ⟨_, c.dec, execDecFeed_of_feed hd hfeed, rfl, hframe.buffer, ⟨new, hnew.symm⟩, rfl, rfl, rfl, rfl, rfl,
    hframe.extents, hframe.known⟩

/-- All that a completed `DEC_FEED` says of its decoder afterwards and of memory. -/
theorem exec_decFeed_next {s t : State} {k : Nat} {d : Decoder} {bytes : List Byte} (hd : s.decs[k]? = some d)
    (h : exec (.decFeed k bytes) s = .next t) :
    ∃ c, feed Config.blockPath bytes ⟨d, s.mem⟩ = .ok c ∧ t.decs[k]? = some c.dec ∧ t.mem = c.mem := by
  obtain ⟨d', c, hd', hfeed, rfl⟩ := execDecFeed_next h
  obtain rfl : d = d' := Option.some.inj (hd.symm.trans hd')
  obtain ⟨hk, -⟩ := List.getElem?_eq_some_iff.1 hd
  exact ⟨c, hfeed, List.getElem?_set_self hk, rfl⟩

/-- Settles O35: what is outside the buffer below its capacity is in the frame of feeding; and a step that writes a byte
appends no record. -/
theorem noWriteOutOfBounds : Obligations.NoWriteOutOfBounds := by
  refine ⟨fun s t k d bytes hd h g j hj hne => ?_, fun s t k d d' b e cmd len som buf hd h hd' hev => ?_⟩
  · obtain ⟨c, hfeed, -, hmem⟩ := exec_decFeed_next hd h
    by_contra hout
    rw [hmem] at hne
    exact hne ((feedLoop_frame hfeed).known g j hj fun a ha hin => hout ⟨a, ha, hin⟩)
  · obtain ⟨c, hfeed, hc, hmem⟩ := exec_decFeed_next hd h
    obtain rfl : c.dec = d' := Option.some.inj (hc.symm.trans hd')
    rw [feed_singleton] at hfeed
    obtain ⟨-, -, -, hsame | ⟨_, -, -, -, -, hquiet, -⟩⟩ := decStep_effect hfeed
    · rw [hmem, hsame]
    · simp [hquiet] at hev

/-- Settles O36: one byte is one `DEC_STEP`. -/
theorem oneByteCausesAtMostOneEvent : Obligations.OneByteCausesAtMostOneEvent := by
  intro s t k d b hd h
  obtain ⟨c, hfeed, hc, -⟩ := exec_decFeed_next hd h
  rw [feed_singleton] at hfeed
  obtain ⟨-, hone, -⟩ := decStep_effect hfeed
  exact ⟨c.dec, hc, hone⟩

end Sys2Proof.Machine
end

section
/-! A decoder with a buffer comes back to `AwaitMarker1` (R207): a count of the bytes it can take until then, which every
byte lowers. -/

namespace Sys2Proof.Machine

/-- The most bytes a decoder with that capacity takes until it is back in `AwaitMarker1`: what the frame it is in can
still hold, the payload bounded by the capacity, since `Payload` ends at `LEN` or with an overrun (R127, R128). -/
def Decoder.bytesToIdle (cap : Nat) (d : Decoder) : Nat :=
  match d.st with
  | .awaitMarker1 => 10 + cap
  | .awaitMarker2 => 9 + cap
  | .commandHigh => 8 + cap
  | .commandLow => 7 + cap
  | .lengthByte0 => 6 + cap
  | .lengthByte1 => 5 + cap
  | .lengthByte2 => 4 + cap
  | .lengthByte3 => 3 + cap
  | .payload => 2 + (cap - d.idx.toNat)
  | .checksumHigh => 2
  | .checksumLow => 1
  | .unused _ => 1

theorem bytesToIdle_le (cap : Nat) (d : Decoder) : d.bytesToIdle cap ≤ 10 + cap := by
  unfold Decoder.bytesToIdle
  split <;> omega

theorem bytesToIdle_pos (cap : Nat) (d : Decoder) : 0 < d.bytesToIdle cap := by
  unfold Decoder.bytesToIdle
  split <;> omega

/-- A byte brings the decoder `d` back to `AwaitMarker1` as `d'`, or lowers the count. -/
def Decoder.Progress (cap : Nat) (d d' : Decoder) : Prop :=
  d'.st = .awaitMarker1 ∨ d'.bytesToIdle cap < d.bytesToIdle cap

/-- `Payload` is entered with `IDX` = 0 (R30), so there the whole capacity is left. -/
theorem stepLengthByte3_progress {cap : Nat} {d : Decoder} (b : Byte) (hs : d.st = .lengthByte3) :
    d.Progress cap (stepLengthByte3 b d) := by
  obtain ⟨e, h⟩ | h | ⟨len, -, -, h⟩ := stepLengthByte3_cases b d <;> rw [h]
  · exact .inl rfl
  · right; simp only [Decoder.bytesToIdle, hs]; omega
  · right; simp only [Decoder.bytesToIdle, hs]; omega

/-- The overrun ends the frame; a byte written leaves one offset less below the capacity (R128). -/
theorem stepPayload_progress {a : Assignment} {b : Byte} {c c' : DecCtx} (hs : c.dec.st = .payload)
    (h : stepPayload a b c = .ok c') : c.dec.Progress a.cap.toNat c'.dec := by
  obtain ⟨-, rfl⟩ | ⟨-, hlt, -, rfl⟩ := stepPayload_ok h
  · exact .inl rfl
  · have hcap : c.dec.idx.toNat < a.cap.toNat := BitVec.lt_def.1 hlt
    right
    by_cases hend : c.dec.idx + 1#32 = c.dec.len
    · simp only [Decoder.bytesToIdle, hs, if_pos hend]
      omega
    · have hidx : (c.dec.idx + 1#32).toNat = c.dec.idx.toNat + 1 := by
        have := a.cap.isLt
        bv_omega
      simp only [Decoder.bytesToIdle, hs, if_neg hend, hidx]
      omega

theorem decStep_progress {b : Byte} {c c' : DecCtx} {a : Assignment} (hb : c.dec.buffer = some a)
    (h : decStep b c = .ok c') : c.dec.Progress a.cap.toNat c'.dec := by
  unfold decStep at h
  split at h
  case h_1 hnone => cases hb.symm.trans hnone
  case h_2 a' ha' =>
    obtain rfl : a = a' := Option.some.inj (hb.symm.trans ha')
    split at h
    case h_1 hs =>
      cases h
      unfold stepAwaitMarker1
      split
      · right; simp only [Decoder.bytesToIdle, hs]; omega
      · exact .inl hs
    case h_2 hs =>
      cases h
      unfold stepAwaitMarker2
      split
      · right; simp only [Decoder.bytesToIdle, hs]; omega
      · exact .inl rfl
    case h_8 hs => cases h; exact stepLengthByte3_progress b hs
    case h_9 hs => exact stepPayload_progress hs h
    case h_11 => cases h; exact .inl rfl
    case h_12 => cases h; exact .inl rfl
    all_goals
      rename_i hs
      cases h
      right
      simp only [Decoder.bytesToIdle, stepCommandHigh, stepCommandLow, stepLengthByte0, stepLengthByte1,
        stepLengthByte2, stepChecksumHigh, hs]
      omega

/-- Among as many bytes as the count allows there is the one that ends the frame. -/
theorem exists_decSteps_awaitMarker1 {a : Assignment} {bytes : List Byte} {c : DecCtx} (hb : c.dec.buffer = some a)
    (hw : c.bufferWritable) (hlen : c.dec.bytesToIdle a.cap.toNat ≤ bytes.length) :
    ∃ n c', 1 ≤ n ∧ n ≤ c.dec.bytesToIdle a.cap.toNat ∧ decSteps (bytes.take n) c = .ok c' ∧
      c'.dec.st = .awaitMarker1 := by
  induction bytes generalizing c with
  | nil => exact absurd (bytesToIdle_pos a.cap.toNat c.dec) (Nat.not_lt.2 hlen)
  | cons b bs ih =>
    rw [List.length_cons] at hlen
    have hpos := bytesToIdle_pos a.cap.toNat c.dec
    obtain ⟨c1, hstep⟩ := decStep_of_writable b hw
    have hframe := decStep_frame hstep
    obtain hidle | hless := decStep_progress hb hstep
    · exact ⟨1, c1, Nat.le_refl 1, hpos, decSteps_cons_of_ok [] hstep, hidle⟩
    · obtain ⟨n, c', -, hn, hrun, hidle⟩ :=
        ih (hframe.buffer.trans hb) (hframe.keeps_bufferWritable hw) (by omega)
      refine ⟨n + 1, c', Nat.le_add_left 1 n, by omega, ?_, hidle⟩
      rw [List.take_succ_cons, decSteps_cons_of_ok _ hstep]
      exact hrun

/-- Settles O37: the count is at most 10 + `BUF_CAP`, and under the invariant feeding is the byte steps. -/
theorem decoderIsNeverStuck : Obligations.DecoderIsNeverStuck := by
  intro s k d a bytes hd hi hb hw hlen
  have hle := bytesToIdle_le a.cap.toNat d
  have hduty : DecCtx.bufferWritable ⟨d, s.mem⟩ := fun a' ha' => Option.some.inj (hb.symm.trans ha') ▸ hw
  obtain ⟨n, c, hpos, hn, hrun, hidle⟩ :=
    exists_decSteps_awaitMarker1 (c := ⟨d, s.mem⟩) (bytes := bytes) hb hduty (by rw [hlen]; exact hle)
  obtain ⟨hk, -⟩ := List.getElem?_eq_some_iff.1 hd
  rw [← feed_eq_decSteps Config.blockPath (c := ⟨d, s.mem⟩) _ hi] at hrun
  exact ⟨n, _, c.dec, hpos, hn.trans hle, execDecFeed_of_feed hd hrun, List.getElem?_set_self hk, hidle⟩

end Sys2Proof.Machine
end

section
/-! Two frames one after the other in one chunk (R66, R196). -/

namespace Sys2Proof.Machine

/-- An encoder's frame fed to an idle decoder with room for its payload: one frame event, and the decoder is reset, with
the same memory lent to it. -/
theorem decSteps_frameBytes {d : Decoder} {a : Assignment} {m : HostMem} (cmd : Half) {payload : List Byte}
    (hb : d.buffer = some a) (hs : d.st = .awaitMarker1) (hcap : payload.length ≤ a.cap.toNat)
    (hw : m.writable a.handle a.cap.toNat) :
    ∃ c, decSteps (frameBytes cmd payload) ⟨d, m⟩ = .ok c ∧ c.dec.st = .awaitMarker1 ∧ c.dec.buffer = some a ∧
      c.dec.events = d.events ++ [.frame cmd (count32 payload) payload] ∧ c.mem.writable a.handle a.cap.toNat := by
  have hfits : m.writable a.handle payload.length := fun i hi => hw i (Nat.lt_of_lt_of_le hi hcap)
  obtain ⟨m', draws, hwrite, hfeed⟩ :=
    feed_wireFrame false cmd (fcs cmd (count32 payload) payload) hb hs hcap hfits
  rw [← frameBytes_eq_wireFrame, feed_eq_decSteps_of_feedable (c := ⟨d, m⟩) _ _ (.inr (.inl hs)), if_pos rfl] at hfeed
  refine ⟨_, hfeed, rfl, hb, rfl, fun i hi => ?_⟩
  rw [HostMem.writeFault, (bufWriteBlock_extents hwrite).1]
  exact hw i hi

/-- Settles O41: the first frame leaves the decoder ready for the second. -/
theorem twoFramesGiveTwoEventsInOrder : Obligations.TwoFramesGiveTwoEventsInOrder := by
  intro s k d a cmd cmd' p p' hd hb hs hcap hcap' hw
  obtain ⟨c, hrun, hs1, hb1, hev, hw1⟩ := decSteps_frameBytes cmd hb hs hcap hw
  obtain ⟨c', hrun', hs2, -, hev', -⟩ := decSteps_frameBytes cmd' hb1 hs1 hcap' hw1
  have hboth : decSteps (frameBytes cmd p ++ frameBytes cmd' p') ⟨d, s.mem⟩ = .ok c' := by
    rw [decSteps_append, hrun]
    exact hrun'
  obtain ⟨hk, -⟩ := List.getElem?_eq_some_iff.1 hd
  have hexec := exec_decFeed_of_feedable hd (.inr (.inl hs)) (frameBytes cmd p ++ frameBytes cmd' p')
  rw [hboth] at hexec
  refine ⟨_, c'.dec, hexec, List.getElem?_set_self hk, hs2, ?_⟩
  rw [hev', hev, List.append_assoc, List.singleton_append]

end Sys2Proof.Machine
end

section
/-! Which operations emit events, and what the frame records hold (R192, R208). -/

namespace Sys2Proof.Machine

theorem DecoderEffect.events_eq {i : Instr} {k : Nat} {c c' : DecCtx} (h : DecoderEffect k i c c')
    (hi : ∀ k bytes, i ≠ .decFeed k bytes) : c'.dec.events = c.dec.events := by
  cases h with
  | feed => exact absurd rfl (hi _ _)
  | reset => rfl
  | setBuffer => exact setBuffer_events _ _ _ _

/-- Settles O51: of the operations on a decoder, only `DEC_FEED` writes its event output. -/
theorem onlyFeedEmitsEvents : Obligations.OnlyFeedEmitsEvents := by
  intro i s t hi h k d d' hd hd'
  cases exec_effect h with
  | result => rw [Option.some.inj (hd.symm.trans hd')]
  | encode => rw [Option.some.inj (hd.symm.trans hd')]
  | @decoder _ n x c hx hc =>
    by_cases hn : n = k
    · subst hn
      obtain ⟨hk, -⟩ := List.getElem?_eq_some_iff.1 hd
      obtain rfl : x = d := Option.some.inj (hx.symm.trans hd)
      obtain rfl : c.dec = d' := Option.some.inj ((List.getElem?_set_self hk).symm.trans hd')
      exact hc.events_eq hi
    · rw [List.getElem?_set_ne hn] at hd'
      rw [Option.some.inj (hd.symm.trans hd')]

/-- Every frame record of the decoder holds as many payload bytes as its length says (R82, R208). -/
def Decoder.framesWhole (d : Decoder) : Prop := ∀ e ∈ d.events, e.whole

theorem framesWhole_congr {d d' : Decoder} (h : d'.events = d.events) (hd : d.framesWhole) : d'.framesWhole := by
  rwa [Decoder.framesWhole, h]

theorem framesWhole_raise (k : ErrorKind) {d : Decoder} (hd : d.framesWhole) : (raise k d).framesWhole :=
  forall_mem_concat hd trivial

/-- The snapshot takes `LEN` bytes (R66, R130). -/
theorem framesWhole_emitFrame (h : BufHandle) {c : DecCtx} (hc : c.dec.framesWhole) :
    (emitFrame h c).dec.framesWhole :=
  forall_mem_concat hc (readBytes_length _ _ _)

theorem framesWhole_stepChecksumLow (a : Assignment) (b : Byte) {c : DecCtx} (hc : c.dec.framesWhole) :
    (stepChecksumLow a b c).dec.framesWhole := by
  unfold stepChecksumLow
  dsimp only
  split
  · exact framesWhole_emitFrame a.handle (c := { c with dec := { c.dec with rxcrc := shiftIn16 c.dec.rxcrc b } }) hc
  · exact framesWhole_raise _ (d := { c.dec with rxcrc := shiftIn16 c.dec.rxcrc b }) hc

theorem decStep_keeps_framesWhole {b : Byte} {c c' : DecCtx} (hc : c.dec.framesWhole) (h : decStep b c = .ok c') :
    c'.dec.framesWhole := by
  unfold decStep at h
  split at h
  · cases h; exact framesWhole_raise _ hc
  · split at h
    case h_1 =>
      cases h
      unfold stepAwaitMarker1
      split
      · exact hc
      · exact framesWhole_raise _ hc
    case h_2 =>
      cases h
      unfold stepAwaitMarker2
      split
      · exact hc
      · exact framesWhole_raise _ hc
    case h_8 =>
      cases h
      unfold stepLengthByte3
      dsimp only
      split
      · exact framesWhole_raise _ hc
      · split <;> exact hc
    case h_9 =>
      obtain ⟨-, rfl⟩ | ⟨-, -, -, rfl⟩ := stepPayload_ok h
      · exact framesWhole_raise _ hc
      · exact hc
    case h_11 => cases h; exact framesWhole_stepChecksumLow _ b hc
    all_goals cases h; exact hc

theorem DecoderEffect.keeps_framesWhole {i : Instr} {k : Nat} {c c' : DecCtx} (h : DecoderEffect k i c c')
    (hc : c.dec.framesWhole) : c'.dec.framesWhole := by
  cases h with
  | feed hf =>
    exact feedLoop_keeps (P := fun c => c.dec.framesWhole) (fun _ _ _ => decStep_keeps_framesWhole)
      (fun _ _ _ _ hc hcopy => framesWhole_congr (blockCopy_events hcopy) hc) hc hf
  | reset => exact hc
  | setBuffer => exact framesWhole_congr (setBuffer_events _ _ _ _) hc

theorem constructDecoder_events (buffer : Option Assignment) : (constructDecoder buffer).events = [] := by
  cases buffer <;> rfl

theorem OperationEffect.keeps_framesWhole {i : Instr} {s t : State} (h : OperationEffect s i t)
    (hs : ∀ d ∈ s.decs, d.framesWhole) : ∀ d ∈ t.decs, d.framesWhole := by
  cases h with
  | decoder hd hc => exact forall_mem_set hs (hc.keeps_framesWhole (hs _ (List.mem_of_getElem? hd))) _
  | result | encode => exact hs

/-- Settles O52: only an operation appends records, and a decoder is constructed with none. -/
theorem noPartialFrameEvent : Obligations.NoPartialFrameEvent := by
  intro s t hs h
  cases step_effect h with
  | op _ hi => exact hi.keeps_framesWhole hs
  | newDecoder buffer =>
    exact forall_mem_concat hs fun e he => by simp [constructDecoder_events] at he
  | skip | beginEncode | turn | newEncoder | shareSink | writeBuffer | setExtent => exact hs

end Sys2Proof.Machine
end

section
/-! The idle machine (R205), and operations for what was never constructed (R203; log 3). -/

namespace Sys2Proof.Machine

/-- Settles O8: with an empty queue the step is that of the idle machine. -/
theorem idleMachineKeepsItsState : Obligations.IdleMachineKeepsItsState := by
  intro s hq
  simp only [step, hq, hostIdle]

theorem onDecoder_of_none {k : Nat} (f : Decoder → Decoder) {s : State} (hd : s.decs[k]? = none) :
    onDecoder k f s = .refused .noSuchAgent := by
  simp only [onDecoder, hd]

theorem exec_decIsIdle_noSuchAgent {s : State} {k : Nat} (hd : s.decs[k]? = none) :
    exec (.decIsIdle k) s = .refused .noSuchAgent := by
  simp only [exec, execDecIsIdle, hd]

/-- Settles O13: each operation looks its decoder, or its encoder and sink, up first. -/
theorem unknownAgentIsRefused : Obligations.UnknownAgentIsRefused := by
  intro s k
  refine ⟨fun hd => ?_, fun cmd payload hlen => ⟨fun he => ?_, fun e he hsink => ?_⟩⟩
  · exact ⟨exec_decFeed_noSuchAgent hd, onDecoder_of_none _ hd, exec_decIsIdle_noSuchAgent hd,
      fun _ _ _ => onDecoder_of_none _ hd⟩
  · exact exec_encEncode_of_error (by simp only [encoderAndSink, if_pos hlen, he])
  · exact exec_encEncode_of_error (by simp only [encoderAndSink, if_pos hlen, he, hsink])

end Sys2Proof.Machine
end

section
/-! Operations that come back to a decoder or encoder of which one is in progress (R61, R233; log 11). -/

namespace Sys2Proof.Machine

section Reentry

variable {s t : State} {r : Request} {i : Instr} {rest : List HostAction}

theorem step_of_rejected {e : Refusal} (hq : s.queue = .op r :: rest ∨ s.queue = .opInTurns r :: rest)
    (hacc : acceptRequest s r = .error e) : step s = .refused e := by
  obtain hq | hq := hq <;> simp only [step, hq, hacc]

theorem step_of_reentrant (hq : s.queue = .op r :: rest ∨ s.queue = .opInTurns r :: rest)
    (hd : decode r.word r.operands = .ok i) (hr : reentrant s r i = true) : step s = .refused .reentrant :=
  step_of_rejected hq (by simp only [acceptRequest, hd, hr, if_true])

/-- A completed operation leaves the host's other acts, and itself within what it was issued within. -/
theorem step_op_queue_chain (hq : s.queue = .op r :: rest) (h : step s = .next t) :
    ∃ i, decode r.word r.operands = .ok i ∧ t.queue = rest ∧ t.chain = s.enclosing r ++ (target i).toList := by
  obtain ⟨i, hacc, hexec⟩ := step_op_next hq h
  exact ⟨i, (acceptRequest_ok hacc).1, exec_queue_chain hexec⟩

end Reentry

/-- Settles O9: the first two clauses are the two ways to be re-entrant, the third is a request that is accepted. -/
theorem reentrantOperationIsRefused : Obligations.ReentrantOperationIsRefused := by
  intro s w r depth rest i hq hd
  refine ⟨fun g hg hmem => ?_, fun k e hk he hpending => ?_, fun hop hchain hidle => ?_⟩
  · exact step_of_reentrant hq hd (reentrant_iff.2 ⟨g, hg, .inl hmem⟩)
  · exact step_of_reentrant hq hd (reentrant_iff.2 ⟨_, hk, .inr (busy_encoder.2 ⟨e, he, hpending⟩)⟩)
  · exact step_op_of_accept hop (acceptRequest_of_free hd hchain hidle)

/-- Settles O57: whatever the second operation is for, the first one's `g` is outermost in `chain` after it. -/
theorem nestedReentryIsRefused : Obligations.NestedReentryIsRefused := by
  intro s t u r₁ r₂ r₃ rest i₁ i₃ g hq hr₁ hr₂ hr₃ hd₁ hd₃ hg₁ hg₃ hst htu
  obtain ⟨j, hj, hqt, hct⟩ := step_op_queue_chain hq hst
  obtain rfl : i₁ = j := Except.ok.inj (hd₁.symm.trans hj)
  obtain ⟨i₂, -, hqu, hcu⟩ := step_op_queue_chain hqt htu
  have hchain : u.chain = g :: (target i₂).toList := by
    simp [hcu, hct, State.enclosing, hr₁, hr₂, hg₁]
  have hmem : g ∈ u.enclosing r₃ := by
    simp [State.enclosing, hr₃, hchain]
  exact step_of_reentrant (.inl hqu) hd₃ (reentrant_iff.2 ⟨g, hg₃, .inl hmem⟩)

end Sys2Proof.Machine
end

section
/-! Two encoders on one sink, each with an encode in turns (R170, R234; logs 9 and 10). -/

namespace Sys2Proof.Machine

/-! ### A sink that returns -/

/-- Every answer listed for the sink is a return (R56). -/
def Sink.returns (x : Sink) : Prop := ∀ a ∈ x.answers, a ≠ .never

theorem issue_of_returns {x : Sink} (tx : SinkTx) (hx : x.returns) :
    ∃ x', issue tx x = some x' ∧ x'.log = x.log ++ [tx] ∧ x'.returns := by
  cases h : issue tx x with
  | none =>
    have hnever : .never ∈ x.answers := by
      unfold issue at h
      split at h
      · cases h
      · cases h
      · rename_i ha
        exact ha ▸ List.mem_cons_self
    exact absurd rfl (hx _ hnever)
  | some x' =>
    obtain ⟨rfl, -⟩ := issue_some h
    exact ⟨_, rfl, rfl, fun a ha => hx a (List.mem_of_mem_tail ha)⟩

/-! ### One act of an encode in turns -/

section Turn

variable {t : State} {m : Nat} {e : Encoder} {rest : List HostAction}

theorem step_turn_of_idle (hq : t.queue = .turn m :: rest) (he : t.encs[m]? = some e) (hp : e.pending = []) :
    step t = .next { t with queue := rest } := by
  simp only [step, hq, encoderTurn, he, hp]

theorem step_turn_of_pending {tx : SinkTx} {due : List SinkTx} {x x' : Sink} (hq : t.queue = .turn m :: rest)
    (he : t.encs[m]? = some e) (hp : e.pending = tx :: due) (hx : t.sinks[e.sink]? = some x)
    (hissue : issue tx x = some x') :
    step t = .next { t with
      queue := rest
      encs := t.encs.set m { e with pending := due }
      sinks := t.sinks.set e.sink x'
      result := if due = [] then .noResult else t.result } := by
  simp only [step, hq, encoderTurn, he, hp, hx, hissue]

/-- Issued between operations, for an encoder with a sink and nothing to issue, an encode in turns is begun. -/
theorem step_beginEncode {r : Request} {cmd : Half} {payload : List Byte} {x : Sink}
    (hq : t.queue = .opInTurns r :: rest) (hr : r.depth = 0)
    (hd : decode r.word r.operands = .ok (.encEncode m cmd payload)) (he : t.encs[m]? = some e)
    (hp : e.pending = []) (hx : t.sinks[e.sink]? = some x) :
    step t = .next { t.enter r (.encEncode m cmd payload) rest with
      encs := t.encs.set m { e with pending := frameTransactions cmd payload } } := by
  have hacc : acceptRequest t r = .ok (.encEncode m cmd payload) := by
    refine acceptRequest_of_free hd (fun g _ => ?_) (fun k e' hk he' => ?_)
    · simp [State.enclosing, hr]
    · cases hk
      cases he.symm.trans he'
      exact hp
  have hlen : payload.length < 4294967296 := of_decide_eq_true (decode_wellFormed hd).1
  have hok : encoderAndSink m payload (t.enter r (.encEncode m cmd payload) rest) = .ok (e, x) :=
    encoderAndSink_of_some hlen he hx
  simp only [step, hq, hacc, performInTurns, beginEncode, hok, enter_encs]

end Turn

/-! ### Both encodes in progress -/

/-- In `encs`, the encoders `j` and `k` on sink `n` have `due₁` and `due₂` to issue, and the others are as in `encs₀`. -/
structure BothDue (encs₀ : List Encoder) (j k n : Nat) (due₁ due₂ : List SinkTx) (encs : List Encoder) : Prop where
  distinct : j ≠ k
  first    : encs[j]? = some { sink := n, pending := due₁ }
  second   : encs[k]? = some { sink := n, pending := due₂ }
  others   : ∀ m, m ≠ j → m ≠ k → encs[m]? = encs₀[m]?

section BothDue

variable {encs₀ encs : List Encoder} {j k n : Nat} {due₁ due₂ : List SinkTx}

theorem BothDue.swap (h : BothDue encs₀ j k n due₁ due₂ encs) : BothDue encs₀ k j n due₂ due₁ encs :=
  ⟨h.distinct.symm, h.second, h.first, fun m hk hj => h.others m hj hk⟩

theorem BothDue.setFirst (h : BothDue encs₀ j k n due₁ due₂ encs) (due : List SinkTx) :
    BothDue encs₀ j k n due due₂ (encs.set j { sink := n, pending := due }) where
  distinct := h.distinct
  first := by
    obtain ⟨hj, -⟩ := List.getElem?_eq_some_iff.1 h.first
    exact List.getElem?_set_self hj
  second := (List.getElem?_set_ne h.distinct).trans h.second
  others m hj hk := (List.getElem?_set_ne hj.symm).trans (h.others m hj hk)

/-- With the same to issue for both, the encoders are the same. -/
theorem BothDue.unique {encs' : List Encoder} (h : BothDue encs₀ j k n due₁ due₂ encs)
    (h' : BothDue encs₀ j k n due₁ due₂ encs') : encs = encs' := by
  refine List.ext_getElem? fun m => ?_
  by_cases hj : m = j
  · rw [hj, h.first, h'.first]
  · by_cases hk : m = k
    · rw [hk, h.second, h'.second]
    · rw [h.others m hj hk, h'.others m hj hk]

end BothDue

/-- Against `s`: in `t` the encoders `j` and `k` have `due₁` and `due₂` to issue to sink `n`, which has received
`log` and returns; the host's next acts are `acts`, and nothing else is changed but the result and `chain`. -/
structure Sharing (s : State) (j k n : Nat) (due₁ due₂ log : List SinkTx) (acts : List HostAction) (t : State) :
    Prop where
  encs  : BothDue s.encs j k n due₁ due₂ t.encs
  sinks : ∃ x, t.sinks[n]? = some x ∧ t.sinks = s.sinks.set n x ∧ x.log = log ∧ x.returns
  decs  : t.decs = s.decs
  mem   : t.mem = s.mem
  queue : t.queue = acts

section Sharing

variable {s t : State} {j k n : Nat} {due₁ due₂ log : List SinkTx} {acts : List HostAction}

theorem Sharing.swap (h : Sharing s j k n due₁ due₂ log acts t) : Sharing s k j n due₂ due₁ log acts t :=
  { h with encs := h.encs.swap }

/-- The first encoder begins its encode. -/
theorem Sharing.begin {r : Request} {cmd : Half} {payload : List Byte}
    (h : Sharing s j k n [] due₂ log (.opInTurns r :: acts) t) (hr : r.depth = 0)
    (hd : decode r.word r.operands = .ok (.encEncode j cmd payload)) :
    ∃ t', step t = .next t' ∧ Sharing s j k n (frameTransactions cmd payload) due₂ log acts t' := by
  obtain ⟨x, hx, -⟩ := h.sinks
  exact ⟨_, step_beginEncode h.queue hr hd h.encs.first rfl hx,
    { encs := h.encs.setFirst _, sinks := h.sinks, decs := h.decs, mem := h.mem, queue := rfl }⟩

/-- The first encoder has its turn. -/
theorem Sharing.turn (h : Sharing s j k n due₁ due₂ log (.turn j :: acts) t) :
    ∃ t', step t = .next t' ∧ Sharing s j k n due₁.tail due₂ (log ++ due₁.head?.toList) acts t' := by
  obtain ⟨x, hx, hset, rfl, hret⟩ := h.sinks
  cases due₁ with
  | nil =>
    refine ⟨_, step_turn_of_idle h.queue h.encs.first rfl, { h with sinks := ?_, queue := rfl }⟩
    exact ⟨x, hx, hset, (List.append_nil _).symm, hret⟩
  | cons tx due =>
    obtain ⟨x', hissue, hlog, hret'⟩ := issue_of_returns tx hret
    obtain ⟨hn, -⟩ := List.getElem?_eq_some_iff.1 hx
    refine ⟨_, step_turn_of_pending h.queue h.encs.first rfl hx hissue,
      { encs := h.encs.setFirst due, sinks := ⟨x', ?_, ?_, hlog, hret'⟩, decs := h.decs, mem := h.mem, queue := rfl }⟩
    · exact List.getElem?_set_self hn
    · simp only [hset, List.set_set]

end Sharing

/-! ### Turns in any order -/

section ByTurns

variable {α : Type} (ts : List Bool) (xs ys : List α)

theorem byTurns_true : byTurns (true :: ts) xs ys = xs.head?.toList ++ byTurns ts xs.tail ys := by
  cases xs <;> simp [byTurns]

theorem byTurns_false : byTurns (false :: ts) xs ys = ys.head?.toList ++ byTurns ts xs ys.tail := by
  cases ys <;> simp [byTurns]

end ByTurns

theorem runSteps_succ_of_next {s t : State} (n : Nat) (h : step s = .next t) : runSteps (n + 1) s = runSteps n t := by
  simp only [runSteps, h, andThen]

/-- The turns `ts`, `true` for the encoder `j` (R234). -/
def turnActs (j k : Nat) (ts : List Bool) : List HostAction := ts.map fun first => .turn (if first then j else k)

/-- Each turn takes the next transaction of its encoder, if there is one. -/
theorem Sharing.turns {s t : State} {j k n : Nat} {due₁ due₂ log : List SinkTx} {rest : List HostAction}
    (ts : List Bool) (h : Sharing s j k n due₁ due₂ log (turnActs j k ts ++ rest) t) :
    ∃ t', runSteps ts.length t = .next t' ∧
      Sharing s j k n (due₁.drop (ts.count true)) (due₂.drop (ts.count false)) (log ++ byTurns ts due₁ due₂) rest t' := by
  induction ts generalizing due₁ due₂ log t with
  | nil => exact ⟨t, rfl, by simpa [byTurns, turnActs] using h⟩
  | cons first ts ih =>
    cases first with
    | true =>
      obtain ⟨t₁, hstep, h₁⟩ := Sharing.turn h
      obtain ⟨t', hrun, h'⟩ := ih h₁
      exact ⟨t', (runSteps_succ_of_next _ hstep).trans hrun, by simpa [byTurns_true] using h'⟩
    | false =>
      obtain ⟨t₁, hstep, h₁⟩ := Sharing.turn h.swap
      obtain ⟨t', hrun, h'⟩ := ih h₁.swap
      exact ⟨t', (runSteps_succ_of_next _ hstep).trans hrun, by simpa [byTurns_false] using h'⟩

/-- Settles O59: both encodes are begun, then every turn takes a transaction of its encoder. -/
theorem sharedSinkReceivesInterleavedFrames : Obligations.SharedSinkReceivesInterleavedFrames := by
  intro s r₁ r₂ ts rest j k n cmd₁ cmd₂ p₁ p₂ sink hq hr₁ hr₂ hjk hd₁ hd₂ hj hk hn hret
  have hidle : BothDue s.encs j k n [] [] s.encs := ⟨hjk, hj, hk, fun _ _ _ => rfl⟩
  have h : Sharing s j k n [] [] sink.log (.opInTurns r₁ :: .opInTurns r₂ :: (turnActs j k ts ++ rest)) s :=
    ⟨hidle, ⟨sink, hn, (set_of_getElem? hn).symm, rfl, hret⟩, rfl, rfl, hq⟩
  obtain ⟨s₁, hstep₁, h₁⟩ := h.begin hr₁ hd₁
  obtain ⟨s₂, hstep₂, h₂⟩ := h₁.swap.begin hr₂ hd₂
  obtain ⟨t, hrun, ht⟩ := h₂.swap.turns ts
  obtain ⟨x, -, hsinks, hlog, -⟩ := ht.sinks
  refine ⟨t, x, ?_, hsinks, hlog, ht.decs, ht.mem, ht.queue, fun hall₁ hall₂ => ?_⟩
  · rw [Nat.add_comm, runSteps_succ_of_next _ hstep₁, runSteps_succ_of_next _ hstep₂, hrun]
  · have hdone := ht.encs
    rw [List.drop_eq_nil_of_le hall₁, List.drop_eq_nil_of_le hall₂] at hdone
    exact hdone.unique hidle

end Sys2Proof.Machine
end

section
/-! The host's acts on decoders and on receive buffers: construction (R220, R222), a buffer's lifetime (R231), a write
between operations (R235). -/

namespace Sys2Proof.Machine

/-! ### Construction (R220, R222) -/

theorem step_newDecoder {s : State} {buffer : Option Assignment} {rest : List HostAction}
    (hq : s.queue = .newDecoder buffer :: rest) :
    step s = .next { s with queue := rest, decs := s.decs ++ [constructDecoder buffer] } := by
  simp only [step, hq, hostNewDecoder]

theorem constructDecoder_eq (buffer : Option Assignment) :
    constructDecoder buffer = { Decoder.powerOn with buffer := buffer } := by
  cases buffer <;> rfl

/-- Settles O11: the decoder constructed is the power-on one with the buffer given. -/
theorem constructionIsPowerOnReset : Obligations.ConstructionIsPowerOnReset := by
  intro s buffer rest hq
  rw [step_newDecoder hq, constructDecoder_eq]
  rfl

/-! ### What a handle names (R224, R231) -/

section WriteFault

variable {m : HostMem} {h : BufHandle}

theorem writeFault_of_ended (he : lookup h m.extents = some none) (i : Nat) :
    m.writeFault h i = some .writeToReleasedBuffer := by
  simp only [HostMem.writeFault, he]

theorem writeFault_of_size {n : Nat} (he : lookup h m.extents = some (some n)) (i : Nat) :
    m.writeFault h i = if i < n then none else some .writeBeyondNamedMemory := by
  simp only [HostMem.writeFault, he]

theorem writeFault_congr {m' : HostMem} (he : lookup h m'.extents = lookup h m.extents) (i : Nat) :
    m'.writeFault h i = m.writeFault h i := by
  simp only [HostMem.writeFault, he]

theorem bufWrite_of_writeFault {i : Nat} {f : Fault} (b : Byte) (hf : m.writeFault h i = some f) :
    bufWrite h i b m = .error f := by
  simp only [bufWrite, hf]

end WriteFault

/-- A payload byte within the length and the capacity faults where the write at `IDX` does (R128, R231). -/
theorem exec_decFeed_payload_fault {s : State} {k : Nat} {d : Decoder} {a : Assignment} {f : Fault} (b : Byte)
    (hd : s.decs[k]? = some d) (hb : d.buffer = some a) (hs : d.st = .payload) (hlen : d.idx < d.len)
    (hcap : d.idx < a.cap) (hf : s.mem.writeFault a.handle d.idx.toNat = some f) :
    exec (.decFeed k [b]) s = .fault f := by
  rw [exec_decFeed hd, feed_singleton, decStep_payload hb hs, stepPayload_of_room b hlen hcap,
    bufWrite_of_writeFault b hf]
  rfl

/-- Settles O24: the memory has ended, or it ends at or before `IDX`. -/
theorem writeOutsideLiveMemoryFaults : Obligations.WriteOutsideLiveMemoryFaults := by
  intro s k d a b n hd hb hs hlen hcap
  refine ⟨fun hended => ?_, fun hsize hbeyond => ?_⟩
  · exact exec_decFeed_payload_fault b hd hb hs hlen hcap (writeFault_of_ended hended _)
  · have hf := (writeFault_of_size hsize d.idx.toNat).trans (if_neg (Nat.not_lt.2 hbeyond))
    exact exec_decFeed_payload_fault b hd hb hs hlen hcap hf

/-! ### A buffer's lifetime (R231, I8, I17) -/

/-- Host memory when a handle has come to name other memory, of that size or ended. -/
def HostMem.setExtent (h : BufHandle) (size : Option Nat) (m : HostMem) : HostMem :=
  { m.forget h with extents := store h size m.extents }

section SetExtent

variable {s : State} {h g : BufHandle} {rest : List HostAction}

theorem step_endLifetime (hq : s.queue = .endLifetime h :: rest) :
    step s = .next { s with queue := rest, mem := s.mem.setExtent h none } := by
  simp only [step, hq, hostEndLifetime, HostMem.setExtent]

theorem step_lend {n : Nat} (hq : s.queue = .lend h n :: rest) :
    step s = .next { s with queue := rest, mem := s.mem.setExtent h (some n) } := by
  simp only [step, hq, hostLend, HostMem.setExtent]

theorem lookup_setExtent_same (size : Option Nat) (m : HostMem) : lookup h (m.setExtent h size).extents = some size :=
  lookup_store_same _ _ _

theorem writeFault_setExtent_other (size : Option Nat) (m : HostMem) (hne : g ≠ h) (i : Nat) :
    (m.setExtent h size).writeFault g i = m.writeFault g i :=
  writeFault_congr (lookup_store_other _ _ hne) i

theorem known_setExtent_other (size : Option Nat) (m : HostMem) (hne : g ≠ h) {i : Nat} (hi : i < 4294967296) :
    (m.setExtent h size).known g i = m.known g i :=
  known_forget_other hi hne

end SetExtent

/-- Settles O56: the handle's extent is the one set, and all other handles keep theirs and their bytes. -/
theorem bufferLifetime : Obligations.BufferLifetime := by
  intro s h n rest
  refine ⟨fun hq => ⟨_, step_endLifetime hq, fun i => ?_, fun g hne i hi => ?_⟩,
    fun hq => ⟨_, step_lend hq, fun i => ?_, fun g hne i hi => ?_⟩⟩
  · exact writeFault_of_ended (lookup_setExtent_same none s.mem) i
  · exact ⟨writeFault_setExtent_other _ _ hne i, known_setExtent_other _ _ hne hi⟩
  · rw [writeFault_of_size (lookup_setExtent_same (some n) s.mem)]
    simp
  · exact ⟨writeFault_setExtent_other _ _ hne i, known_setExtent_other _ _ hne hi⟩

/-! ### A host write between operations (R235) -/

section WriteBuffer

variable {s : State} {h : BufHandle} {i : Word} {rest : List HostAction}

theorem step_writeBuffer_of_writable {b : Byte} (hq : s.queue = .writeBuffer h i b :: rest)
    (hlive : s.mem.writeFault h i.toNat = none) :
    step s = .next { s with
      queue := rest, mem := { s.mem with cells := store (bufKey h i.toNat) b s.mem.cells } } := by
  simp only [step, hq, hostWriteBuffer, bufWrite_of_writable b hlive]

theorem step_writeBuffer_of_writeFault {b : Byte} {f : Fault} (hq : s.queue = .writeBuffer h i b :: rest)
    (hf : s.mem.writeFault h i.toNat = some f) : step s = .fault f := by
  simp only [step, hq, hostWriteBuffer, bufWrite_of_writeFault b hf]

end WriteBuffer

/-- Settles O54: the step is one byte's write, which faults or changes that byte. -/
theorem hostWriteChangesOneByte : Obligations.HostWriteChangesOneByte := by
  intro s h i b rest hq
  refine ⟨fun f hf => step_writeBuffer_of_writeFault hq hf, fun hlive => ?_⟩
  exact ⟨_, step_writeBuffer_of_writable hq hlive, rfl, known_after_write_same _ _ _ _,
    fun g j hj hne => known_after_write_other b _ i.isLt hj hne⟩

theorem decode_requestOf {i : Instr} (hwf : i.wellFormed = true) :
    decode (requestOf i).word (requestOf i).operands = .ok i :=
  decodeAndEncodeAgree.1 i hwf

/-- A `DEC_FEED` issued between operations is performed: only an encoder can be busy then (R233, R234). -/
theorem step_requestOf_decFeed {s : State} {k : Nat} {bytes : List Byte} {rest : List HostAction}
    (hq : s.queue = .op (requestOf (.decFeed k bytes)) :: rest) :
    step s = exec (.decFeed k bytes) (s.enter (requestOf (.decFeed k bytes)) (.decFeed k bytes) rest) :=
  step_op_of_accept hq
    (acceptRequest_of_free (decode_requestOf rfl) (fun _ _ => List.not_mem_nil) (fun _ _ h => by cases h))

/-- Settles O55: the snapshot of the accepted frame reads the byte the host has written before it. -/
theorem hostWriteReachesTheSnapshot : Obligations.HostWriteReachesTheSnapshot := by
  intro s k d a i v b rest hd hb hs hsum hi hlive hq
  obtain ⟨m, hwrite, -, hknown, -⟩ := (hostWriteChangesOneByte s a.handle i v _ hq).2 hlive
  obtain ⟨s₁, hstep, hd₁, hq₁, hknown₁⟩ : ∃ s₁, step s = .next s₁ ∧ s₁.decs[k]? = some d ∧
      s₁.queue = .op (requestOf (.decFeed k [b])) :: rest ∧ s₁.mem.known a.handle i.toNat = some v :=
    ⟨_, hwrite, hd, rfl, hknown⟩
  obtain ⟨t, payload, hfeed, hdecs, -, hsnap, -⟩ :=
    (checksumLowByte (s₁.enter (requestOf (.decFeed k [b])) (.decFeed k [b]) rest) k d a b hd₁ hb hs).1 hsum
  obtain ⟨hk, -⟩ := List.getElem?_eq_some_iff.1 hd₁
  have hd' := (congrArg (·[k]?) hdecs).trans (List.getElem?_set_self hk)
  exact ⟨s₁, t, _, payload, hstep, (step_requestOf_decFeed hq₁).trans hfeed, hd', rfl, hsnap i.toNat v hi hknown₁⟩

end Sys2Proof.Machine
end
